-- ==== Sys2Proof/Word.lean ====
section
/-! DEFINITION. The two word types of the machine (00_scope.md R5: every value is an unsigned integer of a
stated width) and the general-register number. -/

namespace Sys2Proof

/-- A memory cell, a general register, a timer: 8 bits (10_state.md R20, R26, R28). -/
abbrev Byte := BitVec 8

/-- An opcode, `I`, `PC`, a stack entry: 16 bits (10_state.md R22, R23, R25, 30_encoding.md R70). -/
abbrev Word := BitVec 16

/-- The number of a general register, 0 to 15: every value of a 4-bit register field names a register
(30_encoding.md R79). -/
abbrev Reg := Fin 16

end Sys2Proof
end

