-- ==== Sys2Proof/Config.lean ====
section
/-! DEFINITION. The parameters of 00_scope.md R4: the fixed sizes, the OPEN parameters with their defaults, and
the free values. The 80 font bytes (`FONT_BYTES`) stand in Machine/Memory.lean, beside the reset contents they
are part of. -/

namespace Sys2Proof.Config

/-- `MEM_SIZE`: 4096 bytes (20_memory.md R50). -/
def memSize : Nat := 4096

/-- `PROG_BASE`: where the program is loaded and where execution starts (20_memory.md R51, 10_state.md R40). -/
def progBase : Nat := 0x200

/-- `ROM_MAX`: the longest program image, 4096 - 0x200 = 3584 bytes (70_reset_and_hazards.md R251). -/
def romMax : Nat := memSize - progBase

/-- `TIMER_MODE`: where ticks come from (60_exceptions.md R223). -/
inductive TimerMode where
  /-- The core ticks at the end of every fifth completed cycle; there is no `Tick` input. -/
  | divided
  /-- `Tick` is an input event, asynchronous to `Cycle`. -/
  | external
  deriving DecidableEq, Repr

/-- `DISPLAY_NORM`: what the display does with a coordinate pair outside its 64 by 32 grid (44_display.md R184). -/
inductive DisplayNorm where
  /-- The pair is kept as it is. -/
  | store
  /-- The pair is reduced modulo 64 and 32. -/
  | wrap
  /-- The pair is dropped. -/
  | clip
  deriving DecidableEq, Repr

/-- One member of `UNIMPL`, an opcode that decodes but does nothing: its key and its mask (30_encoding.md R78). -/
structure SkippedKey where
  key  : Word
  mask : Word
  deriving DecidableEq, Repr

/-- The OPEN parameters of 00_scope.md R4 that fix the machine. They stand in `State.params`, so that a claim about
every state is a claim about every value of them; no step changes them. DESIGN CHOICE, log entry 2 (safe). -/
structure Params where
  timerMode   : TimerMode
  displayNorm : DisplayNorm
  unimpl      : List SkippedKey
  deriving DecidableEq, Repr

/-- The defaults of 00_scope.md R4: `DIVIDED`, `STORE`, the empty set. -/
def Params.default : Params :=
  { timerMode := .divided, displayNorm := .store, unimpl := [] }

/-- `RAND`: the value of the n-th external answer when it is a random draw, an 8-bit value under no law
(42_alu.md R151). A free value: nothing can be proved of it. Log entry 3 (safe). -/
opaque randomDraw : Nat → Byte

/-- The input collaborator's answer to `Key.poll(k)` when it is the n-th external answer: either truth value
(45_keys_timers.md R196, 40_dispatcher_cycle.md R112). A free value. Log entry 3 (safe). -/
opaque keyAsserted : Nat → BitVec 4 → Bool

end Sys2Proof.Config
end

