-- ==== Sys2Proof/Syntax.lean ====
section
/-! DEFINITION. The 34 instructions of the opcode table, 30_encoding.md R75, one constructor a row in the order of
spec/opcode_table.json. A field has exactly the width its encoding gives it (30_encoding.md R71, R79). Bits the
decoder ignores (R76) are no operand. -/

namespace Sys2Proof

/-- An instruction. The comment of a constructor is its mnemonic template and its rule. -/
inductive Instr where
  /-- `cls`, 44_display.md R181. -/
  | cls
  /-- `rts`, 41_control_flow.md R122. -/
  | rts
  /-- `jmp NNN`, 41_control_flow.md R120. -/
  | jmp (nnn : BitVec 12)
  /-- `jsr NNN`, 41_control_flow.md R121. -/
  | jsr (nnn : BitVec 12)
  /-- `skeq VX,NN`, 41_control_flow.md R124. -/
  | skeqImm (x : Reg) (nn : Byte)
  /-- `skne VX,NN`, 41_control_flow.md R125. -/
  | skneImm (x : Reg) (nn : Byte)
  /-- `skeq VX,VY`, 41_control_flow.md R126. -/
  | skeqReg (x y : Reg)
  /-- `mov VX,NN`, 42_alu.md R140. -/
  | movImm (x : Reg) (nn : Byte)
  /-- `add VX,NN`, 42_alu.md R141. -/
  | addImm (x : Reg) (nn : Byte)
  /-- `mov VX,VY`, 42_alu.md R142. -/
  | movReg (x y : Reg)
  /-- `or VX,VY`, 42_alu.md R143. -/
  | orReg (x y : Reg)
  /-- `and VX,VY`, 42_alu.md R144. -/
  | andReg (x y : Reg)
  /-- `xor VX,VY`, 42_alu.md R145. -/
  | xorReg (x y : Reg)
  /-- `add VX,VY`, 42_alu.md R146. -/
  | addReg (x y : Reg)
  /-- `sub VX,VY`, 42_alu.md R147. -/
  | subReg (x y : Reg)
  /-- `shr VX`, 42_alu.md R148. -/
  | shr (x : Reg)
  /-- `rsb VX,VY`, 42_alu.md R149. -/
  | rsbReg (x y : Reg)
  /-- `shl VX`, 42_alu.md R150. -/
  | shl (x : Reg)
  /-- `skne VX,VY`, 41_control_flow.md R127. -/
  | skneReg (x y : Reg)
  /-- `mvi NNN`, 43_index_memory.md R160. -/
  | mvi (nnn : BitVec 12)
  /-- `jmi NNN`, 41_control_flow.md R123. -/
  | jmi (nnn : BitVec 12)
  /-- `rand VX,NN`, 42_alu.md R151. -/
  | rand (x : Reg) (nn : Byte)
  /-- `sprite VX,VY,N`, 44_display.md R182. -/
  | sprite (x y : Reg) (n : BitVec 4)
  /-- `skpr VX`, 45_keys_timers.md R190. -/
  | skpr (x : Reg)
  /-- `skup VX`, 45_keys_timers.md R191. -/
  | skup (x : Reg)
  /-- `gdelay VX`, 45_keys_timers.md R193. -/
  | gdelay (x : Reg)
  /-- `key VX`, 45_keys_timers.md R192. -/
  | key (x : Reg)
  /-- `sdelay VX`, 45_keys_timers.md R194. -/
  | sdelay (x : Reg)
  /-- `ssound VX`, 45_keys_timers.md R195. -/
  | ssound (x : Reg)
  /-- `adi VX`, 43_index_memory.md R161. -/
  | adi (x : Reg)
  /-- `font VX`, 43_index_memory.md R162. -/
  | font (x : Reg)
  /-- `bcd VX`, 43_index_memory.md R163. -/
  | bcd (x : Reg)
  /-- `str VX`, 43_index_memory.md R164. -/
  | str (x : Reg)
  /-- `ldr VX`, 43_index_memory.md R165. -/
  | ldr (x : Reg)
  deriving DecidableEq, Repr

end Sys2Proof
end

