-- ==== Sys2Proof/Machine/State.lean ====
section
/-! DEFINITION. The state of CHIP8-CORE (10_state.md), the reasons a step can stop, and the state after reset. -/

namespace Sys2Proof.Machine

/-- The memory image: the cells whose byte differs from the reset contents, by rising address (canonical form,
`Memory.wf` in Machine/Memory.lean). -/
abbrev Memory := List Host.Cell

/-- The five halt reasons (60_exceptions.md R210). -/
inductive HaltReason where
  /-- The key of the fetched opcode is in neither the table nor `UNIMPL` (R212). -/
  | decodeFailure
  /-- `jsr` with `SP == 16` (R213). -/
  | stackOverflow
  /-- `rts` with `SP == 0` (R214). -/
  | stackUnderflow
  /-- A fetch with `PC + 1 > 4095` (R215). -/
  | fetchRange
  /-- `sprite`, `bcd`, `str` or `ldr` past address 4095 (R216). -/
  | dataRange
  deriving DecidableEq, Repr

/-- `STATUS` (10_state.md R29). -/
inductive Status where
  /-- A `Cycle` event executes one instruction. -/
  | running
  /-- A `key VX` with `X == x` is suspended. -/
  | waiting (x : Reg)
  /-- Terminal: the reason and the diagnostic address. -/
  | halted (reason : HaltReason) (addr : Word)
  deriving DecidableEq, Repr

/-- The events of the host (40_dispatcher_cycle.md R100). A key code is 4 bits: the host may not deliver one above 15
(R112). -/
inductive HostEvent where
  | reset (rom : List Byte)
  | cycle
  | tick
  | keyResolved (k : BitVec 4)
  deriving DecidableEq, Repr

/-- A coordinate pair of the display (44_display.md R180): naturals, as the core sends them. -/
structure Pixel where
  x : Nat
  y : Nat
  deriving DecidableEq, Repr

/-- The register snapshot the trace sink receives: the sixteen `V`, `PC`, `I`, `SP` (60_exceptions.md R228). The rule does
not say whether `DT`, `ST` and the stack entries are in it (91_not_in_source.md N31); the model leaves them out. DESIGN
CHOICE, log entry 12. -/
structure Snapshot where
  v  : Vector Byte 16
  pc : Word
  i  : Word
  sp : Fin 17
  deriving DecidableEq, Repr

/-- What the trace sink last received (40_dispatcher_cycle.md R106, 60_exceptions.md R211, R228). The text's format is
not specified (30_encoding.md R80): the model gives the decoded instruction itself. DESIGN CHOICE, log entry 8. -/
inductive Report where
  /-- A completed cycle: `trace_addr`, the instruction, `flow_break`, the snapshot. -/
  | executed (addr : Word) (i : Instr) (flowBreak : Bool) (snapshot : Snapshot)
  /-- A completed cycle that skipped an `UNIMPL` opcode: the observability marker (30_encoding.md R78). -/
  | skipped (addr : Word) (op : Word) (flowBreak : Bool) (snapshot : Snapshot)
  /-- A halt: the diagnostic (address and reason). -/
  | halted (reason : HaltReason) (addr : Word)
  deriving DecidableEq, Repr

/-- The state of the machine. `v` to `beeps` are the spec's (10_state.md, section 1). `trace` is an output of the block
that nothing reads back. `params`, `inbox` and `asked` are the model's own (log entries 1, 2, 3). -/
structure State where
  /-- `V[0]` to `V[15]`; `V[15]` is VF, also the flag register (R20, R21). -/
  v      : Vector Byte 16
  /-- `I`, the index register (R22). -/
  i      : Word
  /-- `PC`, the program counter (R23). -/
  pc     : Word
  /-- `SP`, the number of live stack entries, 0 to 16 (R24). -/
  sp     : Fin 17
  /-- `STACK[0]` to `STACK[15]`, return addresses (R25). -/
  stack  : Vector Word 16
  /-- `DT`, the delay timer (R26). -/
  dt     : Byte
  /-- `ST`, the sound timer (R27). -/
  st     : Byte
  /-- `MEM`, the memory image (R28). -/
  mem    : Memory
  /-- `STATUS` (R29). -/
  status : Status
  /-- `CYC`, completed cycles modulo 5 (R30). -/
  cyc    : Fin 5
  /-- `FB`, the display's lit pixels (R32), by rising row and then column, no repeats. -/
  fb     : List Pixel
  /-- `BEEPS`, audio pulses emitted (R34). -/
  beeps  : Nat
  /-- The trace sink's last report; `none` before the first. -/
  trace  : Option Report
  /-- The OPEN parameters; no step changes them. -/
  params : Config.Params
  /-- Host events delivered and not yet processed, oldest first; when there is none the host issues `Cycle`. -/
  inbox  : List HostEvent
  /-- External answers taken so far (random draws and key polls): picks the next free value of Config. -/
  asked  : Nat
  deriving DecidableEq, Repr

/-- The reasons for a fault: there is none. Every stop the spec describes is the halt, which it describes whole
(60_exceptions.md R210, R211) and which is therefore a next state with `STATUS` halted (log entry 5, safe). Its
taxonomy has no other error (00_scope.md R8: "Nothing is undefined"). -/
inductive Fault where
  deriving DecidableEq, Repr

/-- The reasons for a refusal. -/
inductive Refusal where
  /-- Raised by `exec`'s arm of an instruction that has no meaning yet: none. Safe. -/
  | notModelled (mnemonic : String)
  /-- Raised by the `Reset(rom)` event when the image is longer than 3584 bytes, here with its length: the spec gives
  such a reset no meaning and tells a model to refuse it (70_reset_and_hazards.md R252). Safe. -/
  | romTooLong (length : Nat)
  deriving DecidableEq, Repr

/-- The machine right after `Reset` of an empty image (10_state.md R40, 70_reset_and_hazards.md R250): memory lists
nothing, so every cell reads as its reset contents. The values of `trace`, `params`, `inbox` and `asked` are the
model's (DESIGN CHOICE, log entries 1, 2, 3, 8). -/
def State.reset : State where
  v := Vector.replicate 16 0
  i := 0
  pc := 0x0200
  sp := 0
  stack := Vector.replicate 16 0
  dt := 0
  st := 0
  mem := []
  status := .running
  cyc := 0
  fb := []
  beeps := 0
  trace := none
  params := Config.Params.default
  inbox := []
  asked := 0

end Sys2Proof.Machine
end

