-- ==== Sys2Proof/Machine/Framebuffer.lean ====
section
/-! DEFINITION. The display collaborator's pixels, `FB`, and its three operations (44_display.md R180, R184). -/

namespace Sys2Proof.Machine

/-- A pixel of the 64 by 32 grid. -/
def Pixel.inGrid (p : Pixel) : Bool := p.x < 64 && p.y < 32

/-- The order in which `FB` lists its pixels: by row, then by column. -/
def Pixel.before (p q : Pixel) : Bool := p.y < q.y || (p.y == q.y && p.x < q.x)

/-- `norm(x, y)` under `DISPLAY_NORM`: the identity inside the grid (R184). -/
def normPixel (mode : Config.DisplayNorm) (p : Pixel) : Option Pixel :=
  match mode with
  | .store => some p
  | .wrap => some { x := p.x % 64, y := p.y % 32 }
  | .clip => if p.inGrid then some p else none

/-- The set with `p` added. -/
def fbInsert (p : Pixel) : List Pixel → List Pixel
  | [] => [p]
  | q :: qs =>
    if p.before q then p :: q :: qs
    else if p = q then q :: qs
    else q :: fbInsert p qs

/-- The set with `p` taken out. -/
def fbRemove (p : Pixel) (fb : List Pixel) : List Pixel := fb.filter (fun q => q ≠ p)

/-- `Disp.get(x, y)` (R180). -/
def fbGet (mode : Config.DisplayNorm) (fb : List Pixel) (p : Pixel) : Bool :=
  match normPixel mode p with
  | none => false
  | some q => fb.contains q

/-- `Disp.toggle(x, y)` (R180). -/
def fbToggle (mode : Config.DisplayNorm) (fb : List Pixel) (p : Pixel) : List Pixel :=
  match normPixel mode p with
  | none => fb
  | some q => if fb.contains q then fbRemove q fb else fbInsert q fb

/-- The canonical form of `FB`: strictly rising, so equal sets are equal lists. -/
abbrev fbWf (fb : List Pixel) : Prop := fb.Pairwise (fun p q => p.before q)

end Sys2Proof.Machine
end

