-- ==== Sys2Proof/Machine/Memory.lean ====
section
/-! DEFINITION. The memory image (20_memory.md): its reset contents, reading and writing one byte and a run of bytes,
its canonical form, and loading a program. No range is checked here; `memRead`, `memWrite` and `fetch` check it. -/

namespace Sys2Proof.Machine

/-- `FONT_BYTES`, the 80 bytes of 20_memory.md R52, glyph 0 first. -/
def fontBytes : List Byte :=
  [ 0xF0, 0x90, 0x90, 0x90, 0xF0,
    0x20, 0x60, 0x20, 0x20, 0x70,
    0xF0, 0x10, 0xF0, 0x80, 0xF0,
    0xF0, 0x10, 0xF0, 0x10, 0xF0,
    0x90, 0x90, 0xF0, 0x10, 0x10,
    0xF0, 0x80, 0xF0, 0x10, 0xF0,
    0xF0, 0x80, 0xF0, 0x90, 0xF0,
    0xF0, 0x10, 0x20, 0x40, 0x40 ] ++
  [ 0xF0, 0x90, 0xF0, 0x90, 0xF0,
    0xF0, 0x90, 0xF0, 0x10, 0xF0,
    0xF0, 0x90, 0xF0, 0x90, 0x90,
    0xE0, 0x90, 0xE0, 0x90, 0xE0,
    0xF0, 0x80, 0x80, 0x80, 0xF0,
    0xE0, 0x90, 0x90, 0x90, 0xE0,
    0xF0, 0x80, 0xF0, 0x80, 0xF0,
    0xF0, 0x80, 0xF0, 0x80, 0x80 ]

/-- What an unlisted address reads as: the reset contents before a program is loaded, the font from address 0 and zero
after it (20_memory.md R51, 10_state.md R40). -/
def Memory.initial (a : Nat) : Byte := fontBytes.getD a 0

/-- `MEM[a]`. -/
def Memory.read : Memory → Nat → Byte
  | [], a => Memory.initial a
  | (b, v) :: rest, a => if a = b then v else Memory.read rest a

/-- `m` with the pair `(a, v)` put in front, or left out where `a` reads as `v` without it. -/
def Memory.cons (a : Nat) (v : Byte) (m : Memory) : Memory :=
  if v = Memory.initial a then m else (a, v) :: m

/-- `MEM[a] <- v`, keeping the canonical form. -/
def Memory.write : Memory → Nat → Byte → Memory
  | [], a, v => Memory.cons a v []
  | (b, w) :: rest, a, v =>
    if a < b then Memory.cons a v ((b, w) :: rest)
    else if a = b then Memory.cons a v rest
    else (b, w) :: Memory.write rest a v

/-- The `n` bytes from `a` up, in ascending address order (20_memory.md R55). -/
def Memory.readBytes (m : Memory) (a : Nat) : Nat → List Byte
  | 0 => []
  | n + 1 => Memory.read m a :: Memory.readBytes m (a + 1) n

/-- Writes the bytes at ascending addresses from `a` (20_memory.md R55). -/
def Memory.writeBytes (m : Memory) (a : Nat) : List Byte → Memory
  | [] => m
  | v :: vs => Memory.writeBytes (Memory.write m a v) (a + 1) vs

/-- The canonical form: addresses strictly rising and below 4096, no byte equal to what its address reads as unlisted. -/
abbrev Memory.wf (m : Memory) : Prop :=
  m.Pairwise (fun p q => p.1 < q.1) ∧ ∀ p ∈ m, p.1 < Config.memSize ∧ p.2 ≠ Memory.initial p.1

/-- The memory after reset with the image `rom`: the reset contents with byte `j` of the image at `0x200 + j`
(70_reset_and_hazards.md R250, R251). -/
def Memory.loadRom (rom : List Byte) : Memory := Memory.writeBytes [] Config.progBase rom

end Sys2Proof.Machine
end

