-- ==== Sys2Proof/Decode.lean ====
section
/-! DEFINITION. Decoding and encoding, 30_encoding.md. The opcode table is data (R75); decoding is the mask of R72
and the lookup of R73; encoding writes the formats of R74, with 0 in the ignored bits (R76). -/

namespace Sys2Proof

/-! ## Byte order and fields -/

/-- The opcode from its two bytes, the byte at the lower address first: big-endian (20_memory.md R54). -/
def opcodeOfBytes (hi lo : Byte) : Word := hi ++ lo

/-- The byte of an opcode that stands at the lower address (20_memory.md R54). -/
def highByte (op : Word) : Byte := op.extractLsb' 8 8

/-- The byte of an opcode that stands at the higher address (20_memory.md R54). -/
def lowByte (op : Word) : Byte := op.extractLsb' 0 8

/-- `G = op[15:12]` (R71). -/
def fieldG (op : Word) : BitVec 4 := op.extractLsb' 12 4

/-- `X = op[11:8]` (R71). -/
def fieldX (op : Word) : Reg := (op.extractLsb' 8 4).toFin

/-- `Y = op[7:4]` (R71). -/
def fieldY (op : Word) : Reg := (op.extractLsb' 4 4).toFin

/-- `N = op[3:0]` (R71). -/
def fieldN (op : Word) : BitVec 4 := op.extractLsb' 0 4

/-- `NN = op[7:0]` (R71). -/
def fieldNN (op : Word) : Byte := op.extractLsb' 0 8

/-- `NNN = op[11:0]` (R71). -/
def fieldNNN (op : Word) : BitVec 12 := op.extractLsb' 0 12

/-! ## The mask rule and the opcode table -/

/-- `mask(op)`: 0xF00F in group 8, 0xF0FF in groups 0, E and F, 0xF000 otherwise (R72). -/
def maskOf (op : Word) : Word :=
  if fieldG op = 0x8 then 0xF00F
  else if fieldG op = 0x0 ∨ fieldG op = 0xE ∨ fieldG op = 0xF then 0xF0FF
  else 0xF000

/-- `key(op) = op & mask(op)` (R73). -/
def keyOf (op : Word) : Word := op &&& maskOf op

/-- One row of the opcode table (R75): the mnemonic template, the key, the mask, and the instruction with its fields
taken from the unmasked opcode (R73). -/
structure TableRow where
  mnemonic : String
  key      : Word
  mask     : Word
  build    : Word → Instr

/-- Group 0 of R75. -/
def rowsGroup0 : List TableRow :=
  [ ⟨"cls", 0x00E0, 0xF0FF, fun _ => .cls⟩,
    ⟨"rts", 0x00EE, 0xF0FF, fun _ => .rts⟩ ]

/-- Groups 1 to 7 of R75. -/
def rowsGroups1to7 : List TableRow :=
  [ ⟨"jmp NNN", 0x1000, 0xF000, fun op => .jmp (fieldNNN op)⟩,
    ⟨"jsr NNN", 0x2000, 0xF000, fun op => .jsr (fieldNNN op)⟩,
    ⟨"skeq VX,NN", 0x3000, 0xF000, fun op => .skeqImm (fieldX op) (fieldNN op)⟩,
    ⟨"skne VX,NN", 0x4000, 0xF000, fun op => .skneImm (fieldX op) (fieldNN op)⟩,
    ⟨"skeq VX,VY", 0x5000, 0xF000, fun op => .skeqReg (fieldX op) (fieldY op)⟩,
    ⟨"mov VX,NN", 0x6000, 0xF000, fun op => .movImm (fieldX op) (fieldNN op)⟩,
    ⟨"add VX,NN", 0x7000, 0xF000, fun op => .addImm (fieldX op) (fieldNN op)⟩ ]

/-- Group 8 of R75. -/
def rowsGroup8 : List TableRow :=
  [ ⟨"mov VX,VY", 0x8000, 0xF00F, fun op => .movReg (fieldX op) (fieldY op)⟩,
    ⟨"or VX,VY", 0x8001, 0xF00F, fun op => .orReg (fieldX op) (fieldY op)⟩,
    ⟨"and VX,VY", 0x8002, 0xF00F, fun op => .andReg (fieldX op) (fieldY op)⟩,
    ⟨"xor VX,VY", 0x8003, 0xF00F, fun op => .xorReg (fieldX op) (fieldY op)⟩,
    ⟨"add VX,VY", 0x8004, 0xF00F, fun op => .addReg (fieldX op) (fieldY op)⟩,
    ⟨"sub VX,VY", 0x8005, 0xF00F, fun op => .subReg (fieldX op) (fieldY op)⟩,
    ⟨"shr VX", 0x8006, 0xF00F, fun op => .shr (fieldX op)⟩,
    ⟨"rsb VX,VY", 0x8007, 0xF00F, fun op => .rsbReg (fieldX op) (fieldY op)⟩,
    ⟨"shl VX", 0x800E, 0xF00F, fun op => .shl (fieldX op)⟩ ]

/-- Groups 9 to D of R75. -/
def rowsGroups9toD : List TableRow :=
  [ ⟨"skne VX,VY", 0x9000, 0xF000, fun op => .skneReg (fieldX op) (fieldY op)⟩,
    ⟨"mvi NNN", 0xA000, 0xF000, fun op => .mvi (fieldNNN op)⟩,
    ⟨"jmi NNN", 0xB000, 0xF000, fun op => .jmi (fieldNNN op)⟩,
    ⟨"rand VX,NN", 0xC000, 0xF000, fun op => .rand (fieldX op) (fieldNN op)⟩,
    ⟨"sprite VX,VY,N", 0xD000, 0xF000, fun op => .sprite (fieldX op) (fieldY op) (fieldN op)⟩ ]

/-- Group E of R75. -/
def rowsGroupE : List TableRow :=
  [ ⟨"skpr VX", 0xE09E, 0xF0FF, fun op => .skpr (fieldX op)⟩,
    ⟨"skup VX", 0xE0A1, 0xF0FF, fun op => .skup (fieldX op)⟩ ]

/-- Group F of R75. -/
def rowsGroupF : List TableRow :=
  [ ⟨"gdelay VX", 0xF007, 0xF0FF, fun op => .gdelay (fieldX op)⟩,
    ⟨"key VX", 0xF00A, 0xF0FF, fun op => .key (fieldX op)⟩,
    ⟨"sdelay VX", 0xF015, 0xF0FF, fun op => .sdelay (fieldX op)⟩,
    ⟨"ssound VX", 0xF018, 0xF0FF, fun op => .ssound (fieldX op)⟩,
    ⟨"adi VX", 0xF01E, 0xF0FF, fun op => .adi (fieldX op)⟩,
    ⟨"font VX", 0xF029, 0xF0FF, fun op => .font (fieldX op)⟩,
    ⟨"bcd VX", 0xF033, 0xF0FF, fun op => .bcd (fieldX op)⟩,
    ⟨"str VX", 0xF055, 0xF0FF, fun op => .str (fieldX op)⟩,
    ⟨"ldr VX", 0xF065, 0xF0FF, fun op => .ldr (fieldX op)⟩ ]

/-- The Opcode Table, 34 rows (R75). -/
def opcodeTable : List TableRow :=
  rowsGroup0 ++ rowsGroups1to7 ++ rowsGroup8 ++ rowsGroups9toD ++ rowsGroupE ++ rowsGroupF

/-- The row of a key, if it is a key of the table (R73). -/
def rowOfKey (key : Word) : Option TableRow := opcodeTable.find? (fun r => r.key == key)

/-! ## Decoding -/

/-- Why bytes are no instruction. -/
inductive DecodeReject where
  /-- Fewer than the two bytes every instruction has (R70). Never raised by the machine, whose fetch has two. -/
  | truncated
  /-- The key of the opcode is not in the table: an invalid encoding (R77). -/
  | noSuchInstruction (op : Word)
  deriving DecidableEq, Repr

/-- Decodes one opcode (R73); total, a pure function of the 16 bits (R82). -/
def decodeWord (op : Word) : Except DecodeReject Instr :=
  match rowOfKey (keyOf op) with
  | some r => .ok (r.build op)
  | none => .error (.noSuchInstruction op)

/-- Decodes the first instruction of a sequence of bytes, answering it and the bytes after it. -/
def decodeBytes : List Byte → Except DecodeReject (Instr × List Byte)
  | hi :: lo :: rest =>
    match decodeWord (opcodeOfBytes hi lo) with
    | .ok i => .ok (i, rest)
    | .error e => .error e
  | _ => .error .truncated

/-- `op` is in the skipped class `UNIMPL`: its key, under the mask R72 gives its group, is a member (R78). -/
def isSkipped (unimpl : List Config.SkippedKey) (op : Word) : Bool :=
  unimpl.contains { key := keyOf op, mask := maskOf op }

/-! ## Encoding -/

/-- Format `A` (R74): `gggg aaaa aaaa aaaa`. -/
def formatA (g : BitVec 4) (nnn : BitVec 12) : Word := g ++ nnn

/-- Format `XK` (R74), and `XS` with `nn` the fixed sub-opcode byte: `gggg xxxx kkkk kkkk`. -/
def formatXK (g : BitVec 4) (x : Reg) (nn : Byte) : Word := (g ++ BitVec.ofFin (w := 4) x) ++ nn

/-- Format `XYN` (R74), `XYS` with `n` the fixed sub-opcode, `XY` with `n` ignored: `gggg xxxx yyyy nnnn`. -/
def formatXYN (g : BitVec 4) (x y : Reg) (n : BitVec 4) : Word :=
  ((g ++ BitVec.ofFin (w := 4) x) ++ BitVec.ofFin (w := 4) y) ++ n

/-- The opcode of an instruction, 0 in the ignored bits (R74, R75, R76). -/
def encode : Instr → Word
  | .cls => formatXK 0x0 0 0xE0
  | .rts => formatXK 0x0 0 0xEE
  | .jmp nnn => formatA 0x1 nnn
  | .jsr nnn => formatA 0x2 nnn
  | .skeqImm x nn => formatXK 0x3 x nn
  | .skneImm x nn => formatXK 0x4 x nn
  | .skeqReg x y => formatXYN 0x5 x y 0x0
  | .movImm x nn => formatXK 0x6 x nn
  | .addImm x nn => formatXK 0x7 x nn
  | .movReg x y => formatXYN 0x8 x y 0x0
  | .orReg x y => formatXYN 0x8 x y 0x1
  | .andReg x y => formatXYN 0x8 x y 0x2
  | .xorReg x y => formatXYN 0x8 x y 0x3
  | .addReg x y => formatXYN 0x8 x y 0x4
  | .subReg x y => formatXYN 0x8 x y 0x5
  | .shr x => formatXYN 0x8 x 0 0x6
  | .rsbReg x y => formatXYN 0x8 x y 0x7
  | .shl x => formatXYN 0x8 x 0 0xE
  | .skneReg x y => formatXYN 0x9 x y 0x0
  | .mvi nnn => formatA 0xA nnn
  | .jmi nnn => formatA 0xB nnn
  | .rand x nn => formatXK 0xC x nn
  | .sprite x y n => formatXYN 0xD x y n
  | .skpr x => formatXK 0xE x 0x9E
  | .skup x => formatXK 0xE x 0xA1
  | .gdelay x => formatXK 0xF x 0x07
  | .key x => formatXK 0xF x 0x0A
  | .sdelay x => formatXK 0xF x 0x15
  | .ssound x => formatXK 0xF x 0x18
  | .adi x => formatXK 0xF x 0x1E
  | .font x => formatXK 0xF x 0x29
  | .bcd x => formatXK 0xF x 0x33
  | .str x => formatXK 0xF x 0x55
  | .ldr x => formatXK 0xF x 0x65

/-- The two bytes of an instruction as they stand in memory (20_memory.md R54). -/
def encodeBytes (i : Instr) : List Byte := [highByte (encode i), lowByte (encode i)]

/-! ## The host's words -/

/-- The opcode whose bits are the `nbits` low bits of `w`, bit 0 the least significant of the one 16-bit word. -/
def opcodeOfTableWord (nbits w : Nat) : Word := BitVec.ofNat 16 (w % 2 ^ nbits)

/-- The instruction this decoder reads from an instruction whose bits are `w`, numbered as spec/opcode_table.json
numbers them: laid out in memory order and decoded. -/
def decodeTableWord (nbits w : Nat) : Option Instr :=
  let op := opcodeOfTableWord nbits w
  match decodeBytes [highByte op, lowByte op] with
  | .ok (i, _) => some i
  | .error _ => none

end Sys2Proof
end

