-- ==== Sys2Proof/WellFormed.lean ====
section
/-! DEFINITION. The checks on what comes into the machine from outside. An instruction needs none: each field of
`Instr` has the type of its encoded width, so that every term of `Instr` is an instruction with an encoding (every
value of `X` and `Y` names a register, every `N`, `NN`, `NNN` is legal, 30_encoding.md R79). What can be ill formed is a
member of `UNIMPL` and a program image. -/

namespace Sys2Proof

/-- A member of `UNIMPL` (30_encoding.md R78): its mask is the one R72 gives its group, it has no bit outside its mask,
and it is no key of the opcode table. -/
def Config.SkippedKey.wellFormed (k : Config.SkippedKey) : Bool :=
  k.mask == maskOf k.key && k.key &&& k.mask == k.key && (rowOfKey k.key).isNone

/-- Parameters: every member of `UNIMPL` is well formed. -/
def Config.Params.wellFormed (p : Config.Params) : Bool :=
  p.unimpl.all Config.SkippedKey.wellFormed

/-- The loader's contract (70_reset_and_hazards.md R251): at most 3584 bytes. -/
def romFits (rom : List Byte) : Bool := rom.length ≤ Config.romMax

end Sys2Proof
end

