-- ==== Sys2Proof/Machine/Ops.lean ====
section
/-! DEFINITION. The named operations the meanings are written over: the primitives of 00_scope.md R6, taking a halt
(60_exceptions.md R211), the reset (70_reset_and_hazards.md R250), the external answers, the Timer Clock
(60_exceptions.md R221) and the completion of a cycle (40_dispatcher_cycle.md R108). -/

namespace Sys2Proof.Machine

/-- What a meaning or a step answers. -/
abbrev Out := Host.Outcome State Fault Refusal

/-! ## Registers -/

/-- `V[r]` (00_scope.md R6). -/
def State.getV (s : State) (r : Reg) : Byte := s.v[r]

/-- `V[r] <- b` (00_scope.md R6). No register is hard-wired (10_state.md R20). -/
def State.setV (s : State) (r : Reg) (b : Byte) : State := { s with v := s.v.set r b }

/-- `ia`, the address the current instruction was fetched from: a meaning runs with `PC == ia + 2`
(40_dispatcher_cycle.md R103, R105). -/
def State.ia (s : State) : Word := s.pc - 2

/-- Adds 2 to the already advanced `PC` if `c`: a skip (41_control_flow.md R129). -/
def State.skipIf (s : State) (c : Bool) : State := { s with pc := if c then s.pc + 2 else s.pc }

/-! ## Taking a halt, and the way out of one -/

/-- `raise Halt(reason, addr)` (60_exceptions.md R211): `STATUS` is set and the diagnostic is reported; nothing else
changes. A meaning calls it before any effect of its own, so what the rule discards has not been done. -/
def raiseHalt (reason : HaltReason) (addr : Word) (s : State) : State :=
  { s with status := .halted reason addr, trace := some (.halted reason addr) }

/-- Goes on with the state an operation gives, or halts with `reason` at `ia` where it gives none. -/
def orHalt (reason : HaltReason) (s : State) (r : Option State) : Out :=
  match r with
  | some t => .next t
  | none => .next (raiseHalt reason s.ia s)

/-- `Reset(rom)` (70_reset_and_hazards.md R250), the only way out of a halt (60_exceptions.md R218): the whole state is
built anew. The parameters stay (the machine is the same), and so do the events still to come and the count of
answers taken (log entry 9). An image that is too long is refused (R252). -/
def applyReset (rom : List Byte) (s : State) : Out :=
  if romFits rom then
    .next { State.reset with
      mem := Memory.loadRom rom, params := s.params, inbox := s.inbox, asked := s.asked }
  else .refused (.romTooLong rom.length)

/-! ## Memory -/

/-- `MEM[a]` in a state. -/
def State.readByte (s : State) (a : Nat) : Byte := Memory.read s.mem a

/-- The `n` bytes from `a` up lie below 4096 (20_memory.md R57, R58). For `n = 0` this asks `a <= 4096`; no access of
the machine is empty. -/
def inMemory (a n : Nat) : Bool := a + n ≤ Config.memSize

/-- `MemRead(a, n)`: all the bytes, or nothing where the range leaves memory (20_memory.md R58). -/
def memRead (s : State) (a n : Nat) : Option (List Byte) :=
  if inMemory a n then some (Memory.readBytes s.mem a n) else none

/-- `MemWrite(a, n, bytes)`: all the bytes, or nothing where the range leaves memory (20_memory.md R58). -/
def memWrite (s : State) (a : Nat) (bytes : List Byte) : Option State :=
  if inMemory a bytes.length then some { s with mem := Memory.writeBytes s.mem a bytes } else none

/-! ## The call stack -/

/-- `Push(w)`: nothing where `SP == 16` (10_state.md R25). -/
def push (w : Word) (s : State) : Option State :=
  if h : s.sp.val < 16 then
    some { s with stack := s.stack.set s.sp.val w, sp := ⟨s.sp.val + 1, by omega⟩ }
  else none

/-- `Pop()`: the popped entry and the state, or nothing where `SP == 0`; the entry is not erased (10_state.md R25). -/
def pop (s : State) : Option (Word × State) :=
  if h : 0 < s.sp.val then
    some (s.stack[s.sp.val - 1], { s with sp := ⟨s.sp.val - 1, by omega⟩ })
  else none

/-! ## External answers -/

/-- `draw8()` (42_alu.md R151): the next external answer as a byte. -/
def State.nextDraw (s : State) : Byte := Config.randomDraw s.asked

/-- `Key.poll(code)` (45_keys_timers.md R196): the host's answer for a code 0 to 15, false above 15. -/
def State.nextPoll (s : State) (code : Byte) : Bool :=
  if code.toNat ≤ 15 then Config.keyAsserted s.asked (code.setWidth 4) else false

/-- One external answer has been taken. -/
def State.answered (s : State) : State := { s with asked := s.asked + 1 }

/-! ## The Timer Clock and the completion of a cycle -/

/-- A timer one lower, staying at 0 (60_exceptions.md R221). -/
def countDown (t : Byte) : Byte := if t = 0 then 0 else t - 1

/-- The `Tick` (60_exceptions.md R221): both timers count down; one `Beep()` when `ST` goes from 1 to 0 (R222). -/
def tick (s : State) : State :=
  { s with
    dt := countDown s.dt
    st := countDown s.st
    beeps := if s.st = 1 then s.beeps + 1 else s.beeps }

/-- The tick divider at the end of a completed cycle (40_dispatcher_cycle.md R108); `Fin 5` adds modulo 5. -/
def completeCycle (s : State) : State :=
  match s.params.timerMode with
  | .external => s
  | .divided =>
    let t := { s with cyc := s.cyc + 1 }
    if t.cyc = 0 then tick t else t

/-- The snapshot of V, PC, I and SP (60_exceptions.md R228). -/
def State.snapshot (s : State) : Snapshot := { v := s.v, pc := s.pc, i := s.i, sp := s.sp }

/-- `flow_break` for a cycle that fetched at `ia` and ended in `s` (40_dispatcher_cycle.md R106). -/
def flowBreak (ia : Word) (s : State) : Bool := s.pc ≠ ia + 2

/-- Steps 4 to 6 of a cycle that executed `i` at `ia`: report, then divider (40_dispatcher_cycle.md R106, R108). -/
def finishExecuted (ia : Word) (i : Instr) (s : State) : State :=
  completeCycle { s with trace := some (.executed ia i (flowBreak ia s) s.snapshot) }

/-- Steps 4 to 6 of a cycle that skipped the `UNIMPL` opcode `op` at `ia` (30_encoding.md R78). -/
def finishSkipped (ia : Word) (op : Word) (s : State) : State :=
  completeCycle { s with trace := some (.skipped ia op (flowBreak ia s) s.snapshot) }

end Sys2Proof.Machine
end

