-- ==== Sys2Proof/Machine/Operands.lean ====
section
/-! DEFINITION. The operand forms (30_encoding.md R79, 20_memory.md R64): immediates, the indirect address through
`I`, the row count and the pixels of a sprite, and the registers `V[0]` to `V[X]` of a block transfer. -/

namespace Sys2Proof.Machine

/-- `zext_16(NNN)` (R79). -/
def zextNNN (nnn : BitVec 12) : Word := nnn.setWidth 16

/-- `zext_16(b)` (R79). -/
def zextByte (b : Byte) : Word := b.setWidth 16

/-- The address of byte 0 of an access through `I`; byte `j` is at `indexAddr + j`, unreduced (43_index_memory.md R166). -/
def State.indexAddr (s : State) : Nat := s.i.toNat

/-- The row count of `sprite`: `N`, or 16 when `N` is 0 (R79, 44_display.md R182). -/
def spriteRows (n : BitVec 4) : Nat := if n = 0 then 16 else n.toNat

/-- `V[0], V[1], ..., V[X]` (43_index_memory.md R164). -/
def State.regsUpTo (s : State) (x : Reg) : List Byte := s.v.toList.take (x.val + 1)

/-- `for j: V[from + j] <- bytes[j]`, ascending (43_index_memory.md R165); bytes past `V[15]` go nowhere, and no `ldr`
has any. -/
def State.loadRegs (s : State) (first : Nat) : List Byte → State
  | [] => s
  | b :: bs =>
    if h : first < 16 then (s.setV ⟨first, h⟩ b).loadRegs (first + 1) bs else s

/-- The three decimal digits of a byte, hundreds first (43_index_memory.md R163). -/
def decimalDigits (b : Byte) : List Byte :=
  [ BitVec.ofNat 8 (b.toNat / 100), BitVec.ofNat 8 (b.toNat / 10 % 10), BitVec.ofNat 8 (b.toNat % 10) ]

/-- The columns of the set bits of a sprite row, bit 7 at column 0 (44_display.md R182). -/
def litColumns (b : Byte) : List Nat := (List.range 8).filter (fun c => b.getLsbD (7 - c))

/-- The pixels a sprite toggles, `(x0 + c, y0 + r)` for each set bit, row by row, unreduced (44_display.md R182). -/
def litPixels (x0 y0 : Nat) : List Byte → List Pixel
  | [] => []
  | b :: bs => (litColumns b).map (fun c => { x := x0 + c, y := y0 }) ++ litPixels x0 (y0 + 1) bs

/-- Toggles the pixels in turn; the second component says whether one was on before its toggle (44_display.md R182). -/
def drawPixels (mode : Config.DisplayNorm) : List Pixel → List Pixel × Bool → List Pixel × Bool
  | [], acc => acc
  | p :: ps, (fb, hit) => drawPixels mode ps (fbToggle mode fb p, hit || fbGet mode fb p)

end Sys2Proof.Machine
end

