-- ==== Sys2Proof/Machine/Flags.lean ====
section
/-! DEFINITION. The flag computations (10_state.md R21, 42_alu.md R146 to R150, R153): the flag register is `V[15]`,
written whole with 0 or 1. -/

namespace Sys2Proof.Machine

/-- VF, the flag register (10_state.md R21). -/
def VF : Reg := 15

/-- A flag as the byte 0 or 1. -/
def flagByte (c : Bool) : Byte := if c then 1 else 0

/-- Carry of an addition: the raw sum exceeds 255 (42_alu.md R146). -/
def carryOf (a b : Byte) : Bool := 255 < a.toNat + b.toNat

/-- No borrow in `minuend - subtrahend` (42_alu.md R147, R149). -/
def notBorrow (minuend subtrahend : Byte) : Bool := subtrahend.toNat ≤ minuend.toNat

/-- The bit a right shift by one moves out: bit 0 of the unshifted value (42_alu.md R148). -/
def shiftedOutRight (a : Byte) : Bool := a.getLsbD 0

/-- The bit a left shift by one moves out: bit 7 of the unshifted value (42_alu.md R150). -/
def shiftedOutLeft (a : Byte) : Bool := a.getLsbD 7

/-- `V[X] <- result`, then `V[15] <- flag`: with `X == 15` the flag is what stays (42_alu.md R153, `VF_LAST`). -/
def writeWithFlag (x : Reg) (result : Byte) (flag : Bool) (s : State) : State :=
  (s.setV x result).setV VF (flagByte flag)

end Sys2Proof.Machine
end

