-- ==== Sys2Proof/Machine/Alu.lean ====
section
/-! DEFINITION. Register load, arithmetic and logic instructions (42_alu.md R140 to R151). Operands are read from `s`
before anything is written (R153). -/

namespace Sys2Proof.Machine

/-- `mov VX,NN` (R140). -/
def execMovImm (x : Reg) (nn : Byte) (s : State) : Out := .next (s.setV x nn)

/-- `add VX,NN` (R141): no flag (R154). -/
def execAddImm (x : Reg) (nn : Byte) (s : State) : Out := .next (s.setV x (s.getV x + nn))

/-- `mov VX,VY` (R142). -/
def execMovReg (x y : Reg) (s : State) : Out := .next (s.setV x (s.getV y))

/-- `or VX,VY` (R143): no flag (R154). -/
def execOrReg (x y : Reg) (s : State) : Out := .next (s.setV x (s.getV x ||| s.getV y))

/-- `and VX,VY` (R144): no flag (R154). -/
def execAndReg (x y : Reg) (s : State) : Out := .next (s.setV x (s.getV x &&& s.getV y))

/-- `xor VX,VY` (R145): no flag (R154). -/
def execXorReg (x y : Reg) (s : State) : Out := .next (s.setV x (s.getV x ^^^ s.getV y))

/-- `add VX,VY` (R146): flag is the carry. -/
def execAddReg (x y : Reg) (s : State) : Out :=
  let a := s.getV x
  let b := s.getV y
  .next (writeWithFlag x (a + b) (carryOf a b) s)

/-- `sub VX,VY` (R147): `V[X] - V[Y]`, flag is not-borrow. -/
def execSubReg (x y : Reg) (s : State) : Out :=
  let a := s.getV x
  let b := s.getV y
  .next (writeWithFlag x (a - b) (notBorrow a b) s)

/-- `shr VX` (R148): `V[X]` in place, flag is bit 0 of the unshifted value. -/
def execShr (x : Reg) (s : State) : Out :=
  let a := s.getV x
  .next (writeWithFlag x (a >>> 1) (shiftedOutRight a) s)

/-- `rsb VX,VY` (R149): `V[Y] - V[X]`, flag is not-borrow. -/
def execRsbReg (x y : Reg) (s : State) : Out :=
  let a := s.getV x
  let b := s.getV y
  .next (writeWithFlag x (b - a) (notBorrow b a) s)

/-- `shl VX` (R150): `V[X]` in place, flag is bit 7 of the unshifted value. -/
def execShl (x : Reg) (s : State) : Out :=
  let a := s.getV x
  .next (writeWithFlag x (a <<< 1) (shiftedOutLeft a) s)

/-- `rand VX,NN` with the draw `r` (R151). -/
def randWith (r : Byte) (x : Reg) (nn : Byte) (s : State) : State := (s.setV x (r &&& nn)).answered

/-- `rand VX,NN` (R151): the draw is the next free value (log entry 3). -/
def execRand (x : Reg) (nn : Byte) (s : State) : Out := .next (randWith s.nextDraw x nn s)

end Sys2Proof.Machine
end

