-- ==== Sys2Proof/Machine/ControlFlow.lean ====
section
/-! DEFINITION. Control-transfer instructions (41_control_flow.md R120 to R127). A target is not checked when it is
written (R128). -/

namespace Sys2Proof.Machine

/-- `jmp NNN` (R120). -/
def execJmp (nnn : BitVec 12) (s : State) : Out := .next { s with pc := zextNNN nnn }

/-- `jsr NNN` (R121): pushes `PC`, which is `ia + 2`. -/
def execJsr (nnn : BitVec 12) (s : State) : Out :=
  orHalt .stackOverflow s ((push s.pc s).map (fun t => { t with pc := zextNNN nnn }))

/-- `rts` (R122). -/
def execRts (s : State) : Out :=
  orHalt .stackUnderflow s ((pop s).map (fun (w, t) => { t with pc := w }))

/-- `jmi NNN` (R123): indexed by `V[0]`, not reduced to 12 bits. -/
def execJmi (nnn : BitVec 12) (s : State) : Out := .next { s with pc := zextNNN nnn + zextByte (s.getV 0) }

/-- `skeq VX,NN` (R124). -/
def execSkeqImm (x : Reg) (nn : Byte) (s : State) : Out := .next (s.skipIf (s.getV x == nn))

/-- `skne VX,NN` (R125). -/
def execSkneImm (x : Reg) (nn : Byte) (s : State) : Out := .next (s.skipIf (s.getV x != nn))

/-- `skeq VX,VY` (R126). -/
def execSkeqReg (x y : Reg) (s : State) : Out := .next (s.skipIf (s.getV x == s.getV y))

/-- `skne VX,VY` (R127). -/
def execSkneReg (x y : Reg) (s : State) : Out := .next (s.skipIf (s.getV x != s.getV y))

end Sys2Proof.Machine
end

