-- ==== Sys2Proof/Machine/Display.lean ====
section
/-! DEFINITION. Display instructions (44_display.md R181, R182). -/

namespace Sys2Proof.Machine

/-- `cls` (R181). -/
def execCls (s : State) : Out := .next { s with fb := [] }

/-- The effect of `sprite VX,VY,N` once its bytes are read (R182): the pixels toggled by exclusive or, then `V[15]` set
to the collision flag. The coordinates are those of `s`, read before VF is written. -/
def drawSprite (x y : Reg) (bytes : List Byte) (s : State) : State :=
  let drawn := drawPixels s.params.displayNorm (litPixels (s.getV x).toNat (s.getV y).toNat bytes) (s.fb, false)
  { s with fb := drawn.1 }.setV VF (flagByte drawn.2)

/-- `sprite VX,VY,N` (R182). -/
def execSprite (x y : Reg) (n : BitVec 4) (s : State) : Out :=
  orHalt .dataRange s ((memRead s s.indexAddr (spriteRows n)).map (fun b => drawSprite x y b s))

end Sys2Proof.Machine
end

