-- ==== Sys2Proof/Machine/IndexMemory.lean ====
section
/-! DEFINITION. Index-register and memory instructions (43_index_memory.md R160 to R165). An access never changes `I`
(R166). -/

namespace Sys2Proof.Machine

/-- `mvi NNN` (R160). -/
def execMvi (nnn : BitVec 12) (s : State) : Out := .next { s with i := zextNNN nnn }

/-- `adi VX` (R161): modulo 65536, no flag. -/
def execAdi (x : Reg) (s : State) : Out := .next { s with i := s.i + zextByte (s.getV x) }

/-- `font VX` (R162): `V[X]` is not reduced to 4 bits. -/
def execFont (x : Reg) (s : State) : Out := .next { s with i := 5 * zextByte (s.getV x) }

/-- `bcd VX` (R163). -/
def execBcd (x : Reg) (s : State) : Out :=
  orHalt .dataRange s (memWrite s s.indexAddr (decimalDigits (s.getV x)))

/-- `str VX` (R164). -/
def execStr (x : Reg) (s : State) : Out :=
  orHalt .dataRange s (memWrite s s.indexAddr (s.regsUpTo x))

/-- `ldr VX` (R165). -/
def execLdr (x : Reg) (s : State) : Out :=
  orHalt .dataRange s ((memRead s s.indexAddr (x.val + 1)).map (fun b => s.loadRegs 0 b))

end Sys2Proof.Machine
end

