-- ==== Sys2Proof/Machine/KeysTimers.lean ====
section
/-! DEFINITION. Keypad and timer instructions (45_keys_timers.md R190 to R195). -/

namespace Sys2Proof.Machine

/-- `skpr VX` with the poll's answer `down` (R190). -/
def skprWith (down : Bool) (s : State) : State := (s.skipIf down).answered

/-- `skpr VX` (R190): one poll of key `V[X]`. -/
def execSkpr (x : Reg) (s : State) : Out := .next (skprWith (s.nextPoll (s.getV x)) s)

/-- `skup VX` with the poll's answer `down` (R191). -/
def skupWith (down : Bool) (s : State) : State := (s.skipIf (!down)).answered

/-- `skup VX` (R191): one poll of key `V[X]`. -/
def execSkup (x : Reg) (s : State) : Out := .next (skupWith (s.nextPoll (s.getV x)) s)

/-- `gdelay VX` (R193). -/
def execGdelay (x : Reg) (s : State) : Out := .next (s.setV x s.dt)

/-- `key VX`, first half (R192): the cycle is suspended. -/
def execKey (x : Reg) (s : State) : Out := .next { s with status := .waiting x }

/-- `key VX`, second half (R192), in the event `KeyResolved(k)` with `STATUS == WAITING(x)`: the key code is written, the
status is `RUNNING`, and the suspended cycle completes. `PC` has stayed at `ia + 2`. -/
def resolveKey (x : Reg) (k : BitVec 4) (s : State) : State :=
  finishExecuted s.ia (.key x) { s.setV x (k.setWidth 8) with status := .running }

/-- `sdelay VX` (R194). -/
def execSdelay (x : Reg) (s : State) : Out := .next { s with dt := s.getV x }

/-- `ssound VX` (R195). -/
def execSsound (x : Reg) (s : State) : Out := .next { s with st := s.getV x }

end Sys2Proof.Machine
end

