-- ==== Sys2Proof/Machine/Cycle.lean ====
section
/-! DEFINITION. The Cycle event (40_dispatcher_cycle.md R101 to R108) and the other events of the host (R100). -/

namespace Sys2Proof.Machine

/-- `Fetch(PC)`: the opcode, or nothing where `PC + 1 > 4095` (20_memory.md R54, R57, 40_dispatcher_cycle.md R102). -/
def fetch (s : State) : Option Word :=
  if s.pc.toNat + 1 < Config.memSize then
    some (opcodeOfBytes (s.readByte s.pc.toNat) (s.readByte (s.pc.toNat + 1)))
  else none

/-- Step 1b (R103). -/
def State.advancePc (s : State) : State := { s with pc := s.pc + 2 }

/-- What follows the handler of `i`, fetched at `ia` (R105): a cycle whose handler completed goes on to report and
divider; one that halted or is suspended ends here. -/
def afterHandler (ia : Word) (i : Instr) (o : Out) : Out :=
  match o with
  | .next t =>
    match t.status with
    | .running => .next (finishExecuted ia i t)
    | .waiting _ => .next t
    | .halted _ _ => .next t
  | .fault r => .fault r
  | .refused r => .refused r

/-- Steps 2 to 6 on a state whose `PC` is advanced, with the opcode fetched at `ia` (R104 to R108). -/
def runOpcode (ia op : Word) (s : State) : Out :=
  match decodeWord op with
  | .ok i => afterHandler ia i (exec i s)
  | .error _ =>
    if isSkipped s.params.unimpl op then .next (finishSkipped ia op s)
    else .next (raiseHalt .decodeFailure ia s)

/-- One cycle with `STATUS == RUNNING` (R102 to R108). -/
def runCycle (s : State) : Out :=
  match fetch s with
  | none => .next (raiseHalt .fetchRange s.pc s)
  | some op => runOpcode s.pc op s.advancePc

/-- The `Cycle` event (R101): nothing changes while waiting or halted. -/
def cycleEvent (s : State) : Out :=
  match s.status with
  | .running => runCycle s
  | .waiting _ => .next s
  | .halted _ _ => .next s

/-- The `Tick` input (60_exceptions.md R221, R223, R224): it has an effect only in `EXTERNAL` mode, the one that has the
input (log entry 6), and only while running. -/
def tickEvent (s : State) : State :=
  match s.params.timerMode, s.status with
  | .external, .running => tick s
  | .external, .waiting _ => s
  | .external, .halted _ _ => s
  | .divided, _ => s

/-- The event `KeyResolved(k)` (45_keys_timers.md R192, 40_dispatcher_cycle.md R109): it has an effect only while waiting. -/
def keyEvent (k : BitVec 4) (s : State) : State :=
  match s.status with
  | .waiting x => resolveKey x k s
  | .running => s
  | .halted _ _ => s

/-- One event of the host (R100). -/
def hostEvent (e : HostEvent) (s : State) : Out :=
  match e with
  | .reset rom => applyReset rom s
  | .cycle => cycleEvent s
  | .tick => .next (tickEvent s)
  | .keyResolved k => .next (keyEvent k s)

/-- The next event of the host, and the state without it: the oldest delivered one, or `Cycle` when none is
(log entry 1). -/
def nextEvent (s : State) : HostEvent × State :=
  match s.inbox with
  | [] => (.cycle, s)
  | e :: rest => (e, { s with inbox := rest })

/-- Makes the next step a cycle of a running machine that fetches at an address it can fetch from; what is so already
stays. -/
def State.readyToFetch (s : State) : State :=
  { s with
    status := .running
    pc := if s.pc.toNat + 1 < Config.memSize then s.pc else 0x0200
    inbox := match s.inbox with
      | [] => []
      | e :: rest => .cycle :: e :: rest }

/-- The opcode `op` stored where the next fetch reads. -/
def State.storeOpcode (s : State) (op : Word) : State :=
  { s with mem := Memory.writeBytes s.mem s.pc.toNat [highByte op, lowByte op] }

end Sys2Proof.Machine
end

