-- ==== Sys2Proof/Machine/Step.lean ====
section
/-! DEFINITION. One step is one event of the host (00_scope.md R7, 40_dispatcher_cycle.md R100); and the host's way of
placing an instruction. -/

namespace Sys2Proof.Machine

/-- One step: the next event of the host, whole (log entry 1). -/
def step (s : State) : Host.Outcome State Fault Refusal :=
  hostEvent (nextEvent s).1 (nextEvent s).2

/-- `s` with the instruction whose bits are `w` stored where the very next step fetches and runs it (log entry 4). -/
def State.withFetchWord (s : State) (nbits w : Nat) : State :=
  s.readyToFetch.storeOpcode (opcodeOfTableWord nbits w)

end Sys2Proof.Machine
end

