-- ==== Sys2Proof/Machine/Ports.lean ====
section
/-! DEFINITION. The output ports that are functions of the state (60_exceptions.md R226) and the numeric halt codes
(R210). The other outputs are fields of State: the display's effect is `fb`, `beep` is `beeps`, the trace is `trace`. -/

namespace Sys2Proof.Machine

/-- The code of a halt reason, 1 to 5 (R210), 3 bits wide (R226). -/
def HaltReason.code : HaltReason → BitVec 3
  | .decodeFailure => 1
  | .stackOverflow => 2
  | .stackUnderflow => 3
  | .fetchRange => 4
  | .dataRange => 5

/-- `halted`. -/
def State.haltedPort (s : State) : Bool :=
  match s.status with
  | .halted _ _ => true
  | .running => false
  | .waiting _ => false

/-- `halt_reason` and `halt_addr`, while halted. -/
def State.haltPort (s : State) : Option (BitVec 3 × Word) :=
  match s.status with
  | .halted r a => some (r.code, a)
  | .running => none
  | .waiting _ => none

/-- `waiting`. -/
def State.waitingPort (s : State) : Bool :=
  match s.status with
  | .waiting _ => true
  | .running => false
  | .halted _ _ => false

end Sys2Proof.Machine
end

