-- ==== Sys2Proof/Safety.lean ====
section
/-! DEFINITION. The terms claims are made in: a safe run and its end, what a statement lets an instruction write, and
the invariant every step keeps. -/

namespace Sys2Proof.Machine

/-! ## Safe runs -/

/-- A state that is not a halt: the halt is the one sign of a malformed program (60_exceptions.md R210, R218). -/
def Safe (s : State) : Prop := s.haltedPort = false

/-- `n` events from `s` pass through safe states only. -/
def SafeFor (n : Nat) (s : State) : Prop := ∀ k ≤ n, ∃ t, Sys2Proof.core.run k s = .next t ∧ Safe t

/-- `END_OF_RUN`, the customary marker: the core is at a `jmp` to its own address (60_exceptions.md R218). A claim may
take another predicate. DESIGN CHOICE, log entry 10 (safe). -/
def endOfRun (s : State) : Bool :=
  match s.status, fetch s with
  | .running, some op => decodeWord op == .ok (.jmp (s.pc.setWidth 12)) && s.pc.toNat < 4096
  | _, _ => false

/-! ## Events -/

/-- The next event is a `Cycle`: none is pending, or the oldest pending one is `Cycle` (log entry 1). -/
def CycleIsNext (s : State) : Prop := s.inbox = [] ∨ s.inbox.head? = some .cycle

/-- `s` with its oldest pending event taken. -/
def State.eventTaken (s : State) : State := { s with inbox := s.inbox.tail }

/-! ## Frames -/

/-- The parts of the state a statement lets an instruction or an event write: the registers listed, the
`memLen` bytes from `memBase`, and each other field marked true. -/
structure Writes where
  regs      : List Reg := []
  memBase   : Nat := 0
  memLen    : Nat := 0
  index     : Bool := false
  pc        : Bool := false
  callStack : Bool := false
  delay     : Bool := false
  sound     : Bool := false
  beeps     : Bool := false
  divider   : Bool := false
  display   : Bool := false
  status    : Bool := false
  trace     : Bool := false
  asked     : Bool := false
  deriving DecidableEq, Repr

/-- `t` is `s` except for the parts `w` lets be written. Memory is compared through the read of one byte. -/
structure Frame (w : Writes) (s t : State) : Prop where
  regs      : ∀ r, r ∉ w.regs → t.getV r = s.getV r
  memory    : ∀ a, ¬ (w.memBase ≤ a ∧ a < w.memBase + w.memLen) → t.readByte a = s.readByte a
  index     : w.index = false → t.i = s.i
  pc        : w.pc = false → t.pc = s.pc
  callStack : w.callStack = false → t.sp = s.sp ∧ t.stack = s.stack
  delay     : w.delay = false → t.dt = s.dt
  sound     : w.sound = false → t.st = s.st
  beeps     : w.beeps = false → t.beeps = s.beeps
  divider   : w.divider = false → t.cyc = s.cyc
  display   : w.display = false → t.fb = s.fb
  status    : w.status = false → t.status = s.status
  trace     : w.trace = false → t.trace = s.trace
  asked     : w.asked = false → t.asked = s.asked
  params    : t.params = s.params
  inbox     : t.inbox = s.inbox

/-- `i` halts in `s`: `STATUS` records `reason` and `ia`, the diagnostic is reported, and nothing else changes, so `PC`
stays at `ia + 2` (60_exceptions.md R211). -/
def HaltsWith (reason : HaltReason) (i : Instr) (s : State) : Prop :=
  ∃ t, exec i s = .next t ∧ t.status = .halted reason (s.pc - 2) ∧
    t.trace = some (.halted reason (s.pc - 2)) ∧ Frame { status := true, trace := true } s t

/-! ## Pixels of a sprite -/

/-- `p` is a pixel that a sprite of `n` rows at `I` toggles: some row `r` and column `c` have a set bit, and the display
takes `(V[X] + c, V[Y] + r)` as `p` (44_display.md R182, R184). -/
def SpriteCovers (x y : Reg) (n : Nat) (s : State) (p : Pixel) : Prop :=
  ∃ r c, r < n ∧ c < 8 ∧ (s.readByte (s.i.toNat + r)).getLsbD (7 - c) = true ∧
    normPixel s.params.displayNorm { x := (s.getV x).toNat + c, y := (s.getV y).toNat + r } = some p

/-! ## The invariant -/

/-- What every step keeps. -/
structure StepInvariant (s : State) : Prop where
  /-- Memory is in canonical form, inside the 4096 cells (20_memory.md R50). -/
  memory : Memory.wf s.mem
  /-- `FB` is in canonical form. -/
  display : fbWf s.fb
  /-- A lit pixel is one the display could have stored: fixed by `norm`, and at a coordinate the core can send
  (20_memory.md R65, 44_display.md R184). -/
  pixels : ∀ p ∈ s.fb, normPixel s.params.displayNorm p = some p ∧ p.x ≤ 262 ∧ p.y ≤ 270
  /-- The reachable range of `PC` (10_state.md R23). -/
  pcRange : s.pc.toNat ≤ 0x10FE
  /-- A return address is the address after an instruction that was fetched (41_control_flow.md R121, R130). -/
  returnAddresses : ∀ j : Fin 16, s.stack[j].toNat ≤ 0x1000
  /-- While waiting, the suspended instruction is the `key VX` at `PC - 2` (10_state.md R29, R31). -/
  suspended : ∀ x, s.status = .waiting x → s.ia.toNat + 1 < Config.memSize ∧
    decodeWord (opcodeOfBytes (s.readByte s.ia.toNat) (s.readByte (s.ia.toNat + 1))) = .ok (.key x)
  /-- A halt is the last thing the trace sink was told (60_exceptions.md R211). -/
  diagnostic : ∀ r a, s.status = .halted r a → s.trace = some (.halted r a)

end Sys2Proof.Machine
end

