-- ==== Sys2Proof/Certificates/Slice0/Obligations.lean ====
section
/-! DEFINITION. The statements for the provers, each with the rule of spec/ it formalises. The rule's own marks are
named where a clause rests on a decision or an inference of the spec (92_eei_decisions.md, log entry 11) or on a choice
of the model (its log entry). A bit pattern is written as in 30_encoding.md R74: the group nibble, the fields, and `ign`
for ignored bits. -/

open Sys2Proof Sys2Proof.Machine

/-- A register number as the 4 bits of its field. -/
def Sys2Proof.regBits (x : Reg) : BitVec 4 := BitVec.ofFin x

/-- The bits of an opcode that an instruction's decoding and handler use: all but those R76 names as ignored. -/
def Sys2Proof.usedBits : Instr → Word
  | .cls => 0xF0FF
  | .rts => 0xF0FF
  | .skeqReg _ _ => 0xFFF0
  | .skneReg _ _ => 0xFFF0
  | .shr _ => 0xFF0F
  | .shl _ => 0xFF0F
  | .jmp _ => 0xFFFF
  | .jsr _ => 0xFFFF
  | .skeqImm _ _ => 0xFFFF
  | .skneImm _ _ => 0xFFFF
  | .movImm _ _ => 0xFFFF
  | .addImm _ _ => 0xFFFF
  | .movReg _ _ => 0xFFFF
  | .orReg _ _ => 0xFFFF
  | .andReg _ _ => 0xFFFF
  | .xorReg _ _ => 0xFFFF
  | .addReg _ _ => 0xFFFF
  | .subReg _ _ => 0xFFFF
  | .rsbReg _ _ => 0xFFFF
  | .mvi _ => 0xFFFF
  | .jmi _ => 0xFFFF
  | .rand _ _ => 0xFFFF
  | .sprite _ _ _ => 0xFFFF
  | .skpr _ => 0xFFFF
  | .skup _ => 0xFFFF
  | .gdelay _ => 0xFFFF
  | .key _ => 0xFFFF
  | .sdelay _ => 0xFFFF
  | .ssound _ => 0xFFFF
  | .adi _ => 0xFFFF
  | .font _ => 0xFFFF
  | .bcd _ => 0xFFFF
  | .str _ => 0xFFFF
  | .ldr _ => 0xFFFF

/-- The 80 font bytes as the table of 20_memory.md R52 lists them (decision D12), a glyph a row, from address 0. -/
def Sys2Proof.glyphTable : List Byte :=
  [ 0xF0, 0x90, 0x90, 0x90, 0xF0,
    0x20, 0x60, 0x20, 0x20, 0x70,
    0xF0, 0x10, 0xF0, 0x80, 0xF0,
    0xF0, 0x10, 0xF0, 0x10, 0xF0,
    0x90, 0x90, 0xF0, 0x10, 0x10,
    0xF0, 0x80, 0xF0, 0x10, 0xF0,
    0xF0, 0x80, 0xF0, 0x90, 0xF0,
    0xF0, 0x10, 0x20, 0x40, 0x40 ] ++
  [ 0xF0, 0x90, 0xF0, 0x90, 0xF0,
    0xF0, 0x90, 0xF0, 0x10, 0xF0,
    0xF0, 0x90, 0xF0, 0x90, 0x90,
    0xE0, 0x90, 0xE0, 0x90, 0xE0,
    0xF0, 0x80, 0x80, 0x80, 0xF0,
    0xE0, 0x90, 0x90, 0x90, 0xE0,
    0xF0, 0x80, 0xF0, 0x80, 0xF0,
    0xF0, 0x80, 0xF0, 0x80, 0x80 ]

/-! ## Encoding -/

/-- 30_encoding.md R72: the mask is chosen by the top nibble alone. -/
def Obligations.MaskFollowsTheTopNibble : Prop :=
  ∀ op : Word,
    (op.toNat / 4096 = 8 → maskOf op = 0xF00F) ∧
    ((op.toNat / 4096 = 0 ∨ op.toNat / 4096 = 14 ∨ op.toNat / 4096 = 15) → maskOf op = 0xF0FF) ∧
    ((op.toNat / 4096 ≠ 8 ∧ op.toNat / 4096 ≠ 0 ∧ op.toNat / 4096 ≠ 14 ∧ op.toNat / 4096 ≠ 15) →
      maskOf op = 0xF000)

/-- 30_encoding.md R73: an opcode selects a row when `op & mask == match`, no two rows can both match (the rule marks
this as derived), and an opcode that selects none is no instruction. -/
def Obligations.OpcodeSelectsAtMostOneRow : Prop :=
  (∀ (op : Word) (r : TableRow), r ∈ opcodeTable → op &&& r.mask = r.key → decodeWord op = .ok (r.build op)) ∧
  (∀ (op : Word) (r q : TableRow), r ∈ opcodeTable → q ∈ opcodeTable →
    op &&& r.mask = r.key → op &&& q.mask = q.key → r = q) ∧
  (∀ op : Word, (∀ r ∈ opcodeTable, op &&& r.mask ≠ r.key) → decodeWord op = .error (.noSuchInstruction op))

/-- Decoding the encoding of any instruction gives it back, as an opcode and as the two bytes that stand in memory
(30_encoding.md R71, R74, R75, 20_memory.md R54). -/
def Obligations.DecodeOfEncodeIsTheInstruction : Prop :=
  (∀ i : Instr, decodeWord (encode i) = .ok i) ∧
  (∀ (i : Instr) (rest : List Byte), decodeBytes (encodeBytes i ++ rest) = .ok (i, rest))

/-- 30_encoding.md R76 (derived there): an opcode that decodes is its instruction's encoding in every bit but the
ignored ones, and changing only ignored bits changes nothing. -/
def Obligations.OnlyIgnoredBitsAreLost : Prop :=
  ∀ (op : Word) (i : Instr), decodeWord op = .ok i →
    encode i = op &&& usedBits i ∧
    ∀ op' : Word, op' &&& usedBits i = op &&& usedBits i → decodeWord op' = .ok i

/-- 30_encoding.md R77 (derived there): the invalid opcodes are exactly those of its table. -/
def Obligations.InvalidOpcodesAreTheListedOnes : Prop :=
  ∀ op : Word, decodeWord op = .error (.noSuchInstruction op) ↔
    (op.toNat / 4096 = 0x0 ∧ op.toNat % 256 ∉ [0xE0, 0xEE]) ∨
    (op.toNat / 4096 = 0x8 ∧ op.toNat % 16 ∈ [0x8, 0x9, 0xA, 0xB, 0xC, 0xD, 0xF]) ∨
    (op.toNat / 4096 = 0xE ∧ op.toNat % 256 ∉ [0x9E, 0xA1]) ∨
    (op.toNat / 4096 = 0xF ∧
      op.toNat % 256 ∉ [0x07, 0x0A, 0x15, 0x18, 0x1E, 0x29, 0x33, 0x55, 0x65])

/-- Words of every family, written from the rows of 30_encoding.md R75 and the decode vectors of 95_test_vectors.md 2.6. -/
def Obligations.SampleOpcodesDecode : Prop :=
  decodeWord 0x0AE0 = .ok .cls ∧
  decodeWord 0x1ABC = .ok (.jmp 0xABC) ∧
  decodeWord 0x5ABF = .ok (.skeqReg 10 11) ∧
  decodeWord 0x8AB7 = .ok (.rsbReg 10 11) ∧
  decodeWord 0x8ABE = .ok (.shl 10) ∧
  decodeWord 0xD12F = .ok (.sprite 1 2 15) ∧
  decodeWord 0xE1A1 = .ok (.skup 1) ∧
  decodeWord 0xFF0A = .ok (.key 15) ∧
  decodeWord 0xF365 = .ok (.ldr 3) ∧
  decodeWord 0x0000 = .error (.noSuchInstruction 0x0000)

/-! ## The cycle and the other events -/

/-- A step whose event is `Cycle`, on a running machine whose two bytes at `PC` decode to `i`, is `exec i` with `PC`
advanced (40_dispatcher_cycle.md R102 to R105); where that completes, the report and the tick divider follow (R106,
R108), and where it halts or suspends, nothing does (R105). The default of an empty inbox is log entry 1; what
the report and its snapshot hold is log entries 8 and 12. -/
def Obligations.StepRunsTheDecodedInstruction : Prop :=
  ∀ (s : State) (i : Instr), s.status = .running → CycleIsNext s → s.pc.toNat + 1 < 4096 →
    decodeBytes [s.readByte s.pc.toNat, s.readByte (s.pc.toNat + 1)] = .ok (i, []) →
    ∀ t, exec i { s with pc := s.pc + 2, inbox := s.inbox.tail } = .next t →
      (t.status = .running → step s = .next (completeCycle
        { t with trace := some (.executed s.pc i (decide (t.pc ≠ s.pc + 2))
          { v := t.v, pc := t.pc, i := t.i, sp := t.sp }) })) ∧
      (t.status ≠ .running → step s = .next t)

/-- 60_exceptions.md R215, 40_dispatcher_cycle.md R102: a fetch with `PC >= 4095` halts with `PC` and everything else
unchanged. That it halts is decision D14 of the spec. -/
def Obligations.FetchPastTheEndHalts : Prop :=
  ∀ s : State, s.status = .running → CycleIsNext s → 4095 ≤ s.pc.toNat →
    ∃ t, step s = .next t ∧ t.status = .halted .fetchRange s.pc ∧ t.trace = some (.halted .fetchRange s.pc) ∧
      Frame { status := true, trace := true } s.eventTaken t

/-- 60_exceptions.md R212: an opcode in neither the table nor `UNIMPL` halts with `PC == ia + 2` and nothing else
changed. -/
def Obligations.DecodeFailureHalts : Prop :=
  ∀ (s : State) (op : Word), s.status = .running → CycleIsNext s → s.pc.toNat + 1 < 4096 →
    op = opcodeOfBytes (s.readByte s.pc.toNat) (s.readByte (s.pc.toNat + 1)) →
    decodeWord op = .error (.noSuchInstruction op) → isSkipped s.params.unimpl op = false →
    ∃ t, step s = .next t ∧ t.status = .halted .decodeFailure s.pc ∧
      t.trace = some (.halted .decodeFailure s.pc) ∧ t.pc = s.pc + 2 ∧
      Frame { pc := true, status := true, trace := true } s.eventTaken t

/-- 30_encoding.md R78 (decision D5): an opcode of `UNIMPL` changes no state; `PC` is past it, the cycle completes and
counts, the trace receives a marker. In `EXTERNAL` mode, where no tick can follow, nothing else changes at all; in
`DIVIDED` mode the divider counts, and the timers and the pulses change as by the tick of a fifth cycle and in no other
way (40_dispatcher_cycle.md R108, decision D16, 60_exceptions.md R221, R222). What the marker and the snapshot hold is log entries 8
and 12. -/
def Obligations.SkippedOpcodeOnlyCompletes : Prop :=
  ∀ (s : State) (op : Word), s.status = .running → CycleIsNext s → s.pc.toNat + 1 < 4096 →
    op = opcodeOfBytes (s.readByte s.pc.toNat) (s.readByte (s.pc.toNat + 1)) →
    decodeWord op = .error (.noSuchInstruction op) → isSkipped s.params.unimpl op = true →
    ∃ t, step s = .next t ∧ t.pc = s.pc + 2 ∧
      t.trace = some (.skipped s.pc op false { v := s.v, pc := s.pc + 2, i := s.i, sp := s.sp }) ∧
      (s.params.timerMode = .external → t.cyc = s.cyc ∧ t.dt = s.dt ∧ t.st = s.st ∧ t.beeps = s.beeps) ∧
      (s.params.timerMode = .divided → t.cyc.val = (s.cyc.val + 1) % 5 ∧
        t.dt.toNat = s.dt.toNat - (if s.cyc.val = 4 then 1 else 0) ∧
        t.st.toNat = s.st.toNat - (if s.cyc.val = 4 then 1 else 0) ∧
        t.beeps = s.beeps + (if s.cyc.val = 4 ∧ s.st.toNat = 1 then 1 else 0)) ∧
      Frame { pc := true, trace := true, divider := true, delay := true, sound := true, beeps := true } s.eventTaken t

/-- 40_dispatcher_cycle.md R101, R109 and 60_exceptions.md R224 (decision D17): while waiting or halted a `Cycle` and a
`Tick` change nothing; and a `KeyResolved` changes nothing unless waiting. -/
def Obligations.IdleMachineIgnoresEvents : Prop :=
  ∀ s : State,
    (s.status ≠ .running → (CycleIsNext s ∨ s.inbox.head? = some .tick) → step s = .next s.eventTaken) ∧
    (∀ k, s.inbox.head? = some (.keyResolved k) → (∀ x, s.status ≠ .waiting x) → step s = .next s.eventTaken)

/-- 60_exceptions.md R218, 10_state.md R29 (decision D17): once halted, however many events follow, only `Reset` changes
anything. -/
def Obligations.HaltedMachineNeverMoves : Prop :=
  ∀ (n : Nat) (s : State), s.haltedPort = true → (∀ rom, HostEvent.reset rom ∉ s.inbox) →
    Sys2Proof.core.run n s = .next { s with inbox := s.inbox.drop n }

/-- 00_scope.md R8, 70_reset_and_hazards.md R252 (decisions D1, D23): a step answers a next state on every state, but
for a `Reset` with an image longer than 3584 bytes, which it refuses. -/
def Obligations.StepAnswersExceptForALongImage : Prop :=
  ∀ s : State,
    (∃ t, step s = .next t) ∨
    (∃ rom, s.inbox.head? = some (.reset rom) ∧ 3584 < rom.length ∧ step s = .refused (.romTooLong rom.length))

/-- 60_exceptions.md R210, R211, R213, R214, R216 (decision D14): when the handler of an instruction halts, the
diagnostic is `ia` with the reason, nothing else has changed, and the condition of that reason held. -/
def Obligations.HandlerHaltsArePreciseAndListed : Prop :=
  ∀ (i : Instr) (s t : State) (r : HaltReason) (a : Word), s.status = .running → exec i s = .next t →
    t.status = .halted r a →
    a = s.pc - 2 ∧ t.trace = some (.halted r a) ∧ Frame { status := true, trace := true } s t ∧
    ((r = .stackOverflow ∧ s.sp.val = 16 ∧ ∃ nnn, i = .jsr nnn) ∨
     (r = .stackUnderflow ∧ s.sp.val = 0 ∧ i = .rts) ∨
     (r = .dataRange ∧
       ((4095 < s.i.toNat + 2 ∧ ∃ x, i = .bcd x) ∨
        (∃ x : Reg, 4095 < s.i.toNat + x.val ∧ (i = .str x ∨ i = .ldr x)) ∨
        (∃ x y n, 4095 < s.i.toNat + (if n = 0#4 then 16 else n.toNat) - 1 ∧ i = .sprite x y n))))

/-! ## Reset -/

/-- 70_reset_and_hazards.md R250, R251: what `Reset(rom)` leaves, from any state. The font bytes are decision D12,
the cleared display is D18;
that the parameters, the later events and the count of answers stay is log entry 9; the empty trace is log entry 8. -/
def Obligations.ResetBuildsTheStateFromTheImage : Prop :=
  ∀ (s : State) (rom : List Byte) (rest : List HostEvent), s.inbox = .reset rom :: rest → rom.length ≤ 3584 →
    ∃ t, step s = .next t ∧
      (∀ r, t.getV r = 0) ∧ t.i = 0 ∧ t.pc = 0x0200 ∧ t.sp = 0 ∧ (∀ j : Fin 16, t.stack[j] = 0) ∧
      t.dt = 0 ∧ t.st = 0 ∧ t.status = .running ∧ t.cyc = 0 ∧ t.beeps = 0 ∧ t.fb = [] ∧
      (∀ (j : Nat) (h : j < rom.length), t.readByte (0x200 + j) = rom[j]) ∧
      (∀ a, a < 0x200 → t.readByte a = glyphTable.getD a 0) ∧
      (∀ a, 0x200 + rom.length ≤ a → t.readByte a = 0) ∧
      t.trace = none ∧ t.params = s.params ∧ t.inbox = rest ∧ t.asked = s.asked

/-- 70_reset_and_hazards.md R252 (decision D23): an image longer than 3584 bytes gives no state. -/
def Obligations.ResetRefusesALongImage : Prop :=
  ∀ (s : State) (rom : List Byte) (rest : List HostEvent), s.inbox = .reset rom :: rest → 3584 < rom.length →
    step s = .refused (.romTooLong rom.length)

/-- 10_state.md R40: the values after the reset with an empty image, the whole font of 20_memory.md R52 among them. -/
def Obligations.ResetStateHoldsTheStatedValues : Prop :=
  (∀ r, State.reset.getV r = 0) ∧ State.reset.i = 0 ∧ State.reset.pc = 0x0200 ∧ State.reset.sp = 0 ∧
  (∀ j : Fin 16, State.reset.stack[j] = 0) ∧ State.reset.dt = 0 ∧ State.reset.st = 0 ∧
  (List.range 80).map State.reset.readByte = glyphTable ∧
  (∀ a, 0x50 ≤ a → State.reset.readByte a = 0) ∧
  State.reset.status = .running ∧ State.reset.cyc = 0 ∧ State.reset.fb = [] ∧ State.reset.beeps = 0

/-! ## The Timer Clock -/

/-- 60_exceptions.md R221: a `Tick` of a running machine counts both timers down, each independently, to zero and never
below; otherwise it changes nothing. The `Tick` is an input in `EXTERNAL` mode (R223). -/
def Obligations.TickCountsBothTimersDown : Prop :=
  ∀ s : State, s.inbox.head? = some .tick → s.params.timerMode = .external →
    (s.status = .running → ∃ t, step s = .next t ∧
      t.dt.toNat = s.dt.toNat - 1 ∧ t.st.toNat = s.st.toNat - 1 ∧
      t.beeps = s.beeps + (if s.st.toNat = 1 then 1 else 0) ∧
      Frame { delay := true, sound := true, beeps := true } s.eventTaken t) ∧
    (s.status ≠ .running → step s = .next s.eventTaken)

/-- 60_exceptions.md R223: in `DIVIDED` mode there is no `Tick` input. That one delivered all the same is dropped is the
model's choice, log entry 6. -/
def Obligations.DividedModeHasNoTickInput : Prop :=
  ∀ s : State, s.inbox.head? = some .tick → s.params.timerMode = .divided → step s = .next s.eventTaken

/-- 60_exceptions.md R222: one pulse exactly when a tick takes `ST` from 1 to 0, and no instruction gives one (a
`ssound` of 0 does not). -/
def Obligations.OnePulsePerSoundTimerExpiry : Prop :=
  (∀ s : State, (s.st.toNat = 1 → (tick s).beeps = s.beeps + 1 ∧ (tick s).st = 0) ∧
    (s.st.toNat ≠ 1 → (tick s).beeps = s.beeps)) ∧
  (∀ (i : Instr) (s t : State), exec i s = .next t → t.beeps = s.beeps)

/-- 40_dispatcher_cycle.md R108 (decision D16): after `n` completed cycles from any divider value, one tick has come for
each fifth of them; in `EXTERNAL` mode a completed cycle does not tick. The timers are not written in between. -/
def Obligations.EveryFifthCompletedCycleTicks : Prop :=
  (∀ (n : Nat) (s : State), s.params.timerMode = .divided →
    (completeCycle^[n] s).cyc.val = (s.cyc.val + n) % 5 ∧
    (completeCycle^[n] s).dt.toNat = s.dt.toNat - (s.cyc.val + n) / 5 ∧
    (completeCycle^[n] s).st.toNat = s.st.toNat - (s.cyc.val + n) / 5) ∧
  (∀ s : State, s.params.timerMode = .external → completeCycle s = s)

/-- 70_reset_and_hazards.md R257 (e) (derived there): in `DIVIDED` mode a delay of `d >= 1` units, set in a cycle that
began with `CYC`, is at 0 from the end of the `k`-th completed cycle on, `k = (5 - CYC) + 5 * (d - 1)`, that cycle
included, and not before. -/
def Obligations.DelayRunsOutAtTheKthCycle : Prop :=
  ∀ (s : State) (n : Nat), s.params.timerMode = .divided → 1 ≤ s.dt.toNat →
    ((completeCycle^[n] s).dt = 0 ↔ (5 - s.cyc.val) + 5 * (s.dt.toNat - 1) ≤ n)

/-! ## What the instruction set as a whole can write -/

/-- 20_memory.md R55, R64: no instruction but `bcd` and `str` changes a byte of memory. -/
def Obligations.OnlyBcdAndStrWriteMemory : Prop :=
  ∀ (i : Instr) (s t : State), exec i s = .next t → (∀ x, i ≠ .bcd x) → (∀ x, i ≠ .str x) →
    ∀ a, t.readByte a = s.readByte a

/-- 20_memory.md R65: only `cls` and `sprite` reach the display. -/
def Obligations.OnlyClsAndSpriteReachTheDisplay : Prop :=
  ∀ (i : Instr) (s t : State), exec i s = .next t → t.fb ≠ s.fb → i = .cls ∨ ∃ x y n, i = .sprite x y n

/-- 10_state.md R24, R25: `SP` is changed only by `jsr`, which adds 1, and `rts`, which takes 1; no other instruction
changes a stack entry, and `rts` erases none. -/
def Obligations.OnlyCallAndReturnMoveTheStack : Prop :=
  ∀ (i : Instr) (s t : State), exec i s = .next t →
    (t.sp ≠ s.sp → (∃ nnn, i = .jsr nnn ∧ t.sp.val = s.sp.val + 1) ∨ (i = .rts ∧ t.sp.val + 1 = s.sp.val)) ∧
    (t.stack ≠ s.stack → ∃ nnn, i = .jsr nnn)

/-- 10_state.md R21 (decision D8): an instruction that changes `V[15]` is one of the six that write the flag, or has 15
as the destination of its ordinary result. -/
def Obligations.FlagRegisterIsWrittenOnlyAsListed : Prop :=
  ∀ (i : Instr) (s t : State), exec i s = .next t → t.getV 15 ≠ s.getV 15 →
    (∃ x y, i = .addReg x y ∨ i = .subReg x y ∨ i = .rsbReg x y) ∨
    (∃ x, i = .shr x ∨ i = .shl x) ∨
    (∃ x y n, i = .sprite x y n) ∨
    (∃ nn, i = .movImm 15 nn ∨ i = .addImm 15 nn ∨ i = .rand 15 nn) ∨
    (∃ y, i = .movReg 15 y ∨ i = .orReg 15 y ∨ i = .andReg 15 y ∨ i = .xorReg 15 y) ∨
    i = .gdelay 15 ∨ i = .ldr 15

/-- 10_state.md R22 (decision D10): `I` is written only by `mvi`, `adi` and `font`; an access through it leaves it. -/
def Obligations.IndexIsWrittenOnlyByIndexInstructions : Prop :=
  ∀ (i : Instr) (s t : State), exec i s = .next t → t.i ≠ s.i →
    (∃ nnn, i = .mvi nnn) ∨ ∃ x, i = .adi x ∨ i = .font x

/-- 10_state.md R26, R27: an instruction sets a timer only as `sdelay` or `ssound`, each its own. -/
def Obligations.TimersAreSetOnlyByTheirInstructions : Prop :=
  ∀ (i : Instr) (s t : State), exec i s = .next t →
    (t.dt ≠ s.dt → ∃ x, i = .sdelay x ∧ t.dt = s.getV x) ∧ (t.st ≠ s.st → ∃ x, i = .ssound x ∧ t.st = s.getV x)

/-- 10_state.md R23, 60_exceptions.md R219: nothing but an instruction of 41_control_flow.md and the two key skips leaves
`PC` other than `ia + 2`, and a skip leaves it at `ia + 2` or `ia + 4`. (`s.pc` is `ia + 2`.) -/
def Obligations.OnlyTransfersAndSkipsMovePc : Prop :=
  ∀ (i : Instr) (s t : State), exec i s = .next t → t.pc ≠ s.pc →
    (i = .rts ∨ ∃ nnn, i = .jmp nnn ∨ i = .jsr nnn ∨ i = .jmi nnn) ∨
    (t.pc = s.pc + 2 ∧
      ((∃ x nn, i = .skeqImm x nn ∨ i = .skneImm x nn) ∨ (∃ x y, i = .skeqReg x y ∨ i = .skneReg x y) ∨
       ∃ x, i = .skpr x ∨ i = .skup x))

/-! ## Invariants -/

/-- The invariant holds after reset. -/
def Obligations.InvariantHoldsAtReset : Prop := StepInvariant State.reset

/-- Every step keeps the invariant: memory and display in canonical form and in range, `PC` at most 0x10FE (10_state.md
R23, derived there), return addresses at most 0x1000, a suspended instruction still there, a halt reported. -/
def Obligations.EveryStepKeepsTheInvariant : Prop :=
  ∀ s t : State, StepInvariant s → step s = .next t → StepInvariant t

/-- No step changes the parameters (log entry 2). -/
def Obligations.NoStepChangesTheParameters : Prop :=
  ∀ s t : State, step s = .next t → t.params = s.params

/-- 40_dispatcher_cycle.md R106, 60_exceptions.md R228, 10_state.md R34: the trace is purely observational and nothing
reads `BEEPS` back. Machines that differ in those two only still differ in those two only after a step. -/
def Obligations.TraceAndBeepsFeedNothingBack : Prop :=
  ∀ (s t : State) (tr : Option Report) (b : Nat), step s = .next t →
    ∃ tr' b', step { s with trace := tr, beeps := b } = .next { t with trace := tr', beeps := b' }

/-- 10_state.md R25 (derived there): entries at and above `SP` are unobservable by a program. Machines that differ in
those only still differ in those only after a step. That the trace reports are equal too goes beyond R25 and is the
model's choice, log entry 12: its snapshot has no stack entries, which 60_exceptions.md R228 leaves open. -/
def Obligations.DeadStackEntriesAreUnobservable : Prop :=
  ∀ (s t : State) (dead : Vector Word 16), (∀ j : Fin 16, j.val < s.sp.val → dead[j] = s.stack[j]) →
    step s = .next t →
    ∃ dead' : Vector Word 16, step { s with stack := dead } = .next { t with stack := dead' } ∧
      ∀ j : Fin 16, j.val < t.sp.val → dead'[j] = t.stack[j]

/-! ## Headline properties -/

/-- 41_control_flow.md R121, R122 (W5 of 95_test_vectors.md): a `jsr` followed immediately by `rts` restores `PC` to the
address after the `jsr` and `SP` to its pre-call value, and leaves every register and every byte of memory. Both steps
are `Cycle` events of an empty inbox (log entry 1). -/
def Obligations.SubroutineRoundTrip : Prop :=
  ∀ (s : State) (nnn : BitVec 12), s.status = .running → s.inbox = [] → s.sp.val < 16 →
    s.pc.toNat + 1 < 4096 → nnn.toNat + 1 < 4096 →
    decodeBytes [s.readByte s.pc.toNat, s.readByte (s.pc.toNat + 1)] = .ok (.jsr nnn, []) →
    decodeBytes [s.readByte nnn.toNat, s.readByte (nnn.toNat + 1)] = .ok (.rts, []) →
    ∃ t u, step s = .next t ∧ step t = .next u ∧
      t.pc.toNat = nnn.toNat ∧ t.sp.val = s.sp.val + 1 ∧
      u.pc = s.pc + 2 ∧ u.sp = s.sp ∧ u.status = .running ∧
      (∀ r, u.getV r = s.getV r) ∧ (∀ a, u.readByte a = s.readByte a)

/-- 44_display.md R182 (W3 of 95_test_vectors.md), `X` and `Y` not 15 so that the coordinates are the same both times: a
second identical draw restores the display, and reports a collision if the first turned a pixel on. It holds under every
`DISPLAY_NORM` (R184). -/
def Obligations.SpriteDrawnTwiceRestoresTheDisplay : Prop :=
  ∀ (x y : Reg) (n : BitVec 4) (s : State), x ≠ 15 → y ≠ 15 → fbWf s.fb →
    s.i.toNat + (if n = 0 then 16 else n.toNat) ≤ 4096 →
    ∃ t u, exec (.sprite x y n) s = .next t ∧ exec (.sprite x y n) t = .next u ∧
      u.fb = s.fb ∧ ((∃ p, p ∈ t.fb ∧ p ∉ s.fb) → u.getV 15 = 1)

/-- 20_memory.md R62: a store is seen by the next fetch. After `str VX`, a fetch at any address inside the stored bytes
reads the registers stored there, the byte at the lower address as the high half (R54). -/
def Obligations.StoredBytesAreTheNextFetch : Prop :=
  ∀ (x : Reg) (s : State) (p : Word) (j : Nat) (hj : j + 1 ≤ x.val), Memory.wf s.mem → s.i.toNat + x.val ≤ 4095 →
    p.toNat = s.i.toNat + j →
    ∃ t, exec (.str x) s = .next t ∧
      fetch { t with pc := p } =
        some (opcodeOfBytes (s.getV ⟨j, by omega⟩) (s.getV ⟨j + 1, by omega⟩))

/-! ## Control-transfer instructions (`s.pc` is `ia + 2`) -/

/-- 41_control_flow.md R120, R128. -/
def Obligations.JmpGoesToItsAddress : Prop :=
  (∀ nnn : BitVec 12, decodeWord (0x1#4 ++ nnn) = .ok (.jmp nnn)) ∧
  ∀ (nnn : BitVec 12) (s : State), ∃ t, exec (.jmp nnn) s = .next t ∧
    t.pc.toNat = nnn.toNat ∧ Frame { pc := true } s t

/-- 41_control_flow.md R121, 60_exceptions.md R213. -/
def Obligations.JsrPushesTheReturnAddressAndJumps : Prop :=
  (∀ nnn : BitVec 12, decodeWord (0x2#4 ++ nnn) = .ok (.jsr nnn)) ∧
  (∀ (nnn : BitVec 12) (s : State) (_ : s.sp.val < 16), ∃ t, exec (.jsr nnn) s = .next t ∧
    t.stack[s.sp.val] = s.pc ∧ (∀ j : Fin 16, j.val ≠ s.sp.val → t.stack[j] = s.stack[j]) ∧
    t.sp.val = s.sp.val + 1 ∧ t.pc.toNat = nnn.toNat ∧ Frame { pc := true, callStack := true } s t) ∧
  (∀ (nnn : BitVec 12) (s : State), s.sp.val = 16 → HaltsWith .stackOverflow (.jsr nnn) s)

/-- 41_control_flow.md R122, 60_exceptions.md R214, 30_encoding.md R76: bits 11:8 are ignored. -/
def Obligations.RtsPopsTheReturnAddress : Prop :=
  (∀ ign : BitVec 4, decodeWord (0x0#4 ++ ign ++ 0xEE#8) = .ok .rts) ∧
  (∀ (s : State) (_ : 0 < s.sp.val), ∃ t, exec .rts s = .next t ∧
    t.pc = s.stack[s.sp.val - 1] ∧ t.sp.val = s.sp.val - 1 ∧ t.stack = s.stack ∧
    Frame { pc := true, callStack := true } s t) ∧
  (∀ s : State, s.sp.val = 0 → HaltsWith .stackUnderflow .rts s)

/-- 41_control_flow.md R123 (decision D27): the sum is not reduced to 12 bits. -/
def Obligations.JmiJumpsIndexedByV0 : Prop :=
  (∀ nnn : BitVec 12, decodeWord (0xB#4 ++ nnn) = .ok (.jmi nnn)) ∧
  ∀ (nnn : BitVec 12) (s : State), ∃ t, exec (.jmi nnn) s = .next t ∧
    t.pc.toNat = nnn.toNat + (s.getV 0).toNat ∧ Frame { pc := true } s t

/-- 41_control_flow.md R124 to R127 and R129 (decision D26): a skip that is taken adds 2 to the advanced `PC`. Groups 5
and 9 ignore the low nibble (30_encoding.md R76, decision D4). -/
def Obligations.SkipsCompareAndSkipOneInstruction : Prop :=
  (∀ (x : Reg) (nn : Byte), decodeWord (0x3#4 ++ regBits x ++ nn) = .ok (.skeqImm x nn) ∧
    decodeWord (0x4#4 ++ regBits x ++ nn) = .ok (.skneImm x nn)) ∧
  (∀ (x y : Reg) (ign : BitVec 4), decodeWord (0x5#4 ++ regBits x ++ regBits y ++ ign) = .ok (.skeqReg x y) ∧
    decodeWord (0x9#4 ++ regBits x ++ regBits y ++ ign) = .ok (.skneReg x y)) ∧
  (∀ (x : Reg) (nn : Byte) (s : State),
    (∃ t, exec (.skeqImm x nn) s = .next t ∧ t.pc = (if s.getV x = nn then s.pc + 2 else s.pc) ∧
      Frame { pc := true } s t) ∧
    (∃ t, exec (.skneImm x nn) s = .next t ∧ t.pc = (if s.getV x = nn then s.pc else s.pc + 2) ∧
      Frame { pc := true } s t)) ∧
  (∀ (x y : Reg) (s : State),
    (∃ t, exec (.skeqReg x y) s = .next t ∧ t.pc = (if s.getV x = s.getV y then s.pc + 2 else s.pc) ∧
      Frame { pc := true } s t) ∧
    (∃ t, exec (.skneReg x y) s = .next t ∧ t.pc = (if s.getV x = s.getV y then s.pc else s.pc + 2) ∧
      Frame { pc := true } s t))

/-! ## Register load, arithmetic and logic -/

/-- 42_alu.md R140, R142: no flag is written; with `X == 15` VF is loaded as data. -/
def Obligations.MovLoadsTheRegister : Prop :=
  (∀ (x : Reg) (nn : Byte), decodeWord (0x6#4 ++ regBits x ++ nn) = .ok (.movImm x nn)) ∧
  (∀ x y : Reg, decodeWord (0x8#4 ++ regBits x ++ regBits y ++ 0x0#4) = .ok (.movReg x y)) ∧
  (∀ (x : Reg) (nn : Byte) (s : State), ∃ t, exec (.movImm x nn) s = .next t ∧
    t.getV x = nn ∧ Frame { regs := [x] } s t) ∧
  (∀ (x y : Reg) (s : State), ∃ t, exec (.movReg x y) s = .next t ∧
    t.getV x = s.getV y ∧ Frame { regs := [x] } s t)

/-- 42_alu.md R141: wraps modulo 256; no flag is written. -/
def Obligations.AddConstantWrapsAndSetsNoFlag : Prop :=
  (∀ (x : Reg) (nn : Byte), decodeWord (0x7#4 ++ regBits x ++ nn) = .ok (.addImm x nn)) ∧
  (∀ (x : Reg) (nn : Byte) (s : State), ∃ t, exec (.addImm x nn) s = .next t ∧
    (t.getV x).toNat = ((s.getV x).toNat + nn.toNat) % 256 ∧ Frame { regs := [x] } s t)

/-- 42_alu.md R143, R144, R145: bit by bit; no flag is written. -/
def Obligations.LogicInstructionsWorkBitwise : Prop :=
  (∀ x y : Reg, decodeWord (0x8#4 ++ regBits x ++ regBits y ++ 0x1#4) = .ok (.orReg x y) ∧
    decodeWord (0x8#4 ++ regBits x ++ regBits y ++ 0x2#4) = .ok (.andReg x y) ∧
    decodeWord (0x8#4 ++ regBits x ++ regBits y ++ 0x3#4) = .ok (.xorReg x y)) ∧
  (∀ (x y : Reg) (s : State),
    (∃ t, exec (.orReg x y) s = .next t ∧ Frame { regs := [x] } s t ∧
      ∀ j, j < 8 → (t.getV x).getLsbD j = ((s.getV x).getLsbD j || (s.getV y).getLsbD j)) ∧
    (∃ t, exec (.andReg x y) s = .next t ∧ Frame { regs := [x] } s t ∧
      ∀ j, j < 8 → (t.getV x).getLsbD j = ((s.getV x).getLsbD j && (s.getV y).getLsbD j)) ∧
    (∃ t, exec (.xorReg x y) s = .next t ∧ Frame { regs := [x] } s t ∧
      ∀ j, j < 8 → (t.getV x).getLsbD j = ((s.getV x).getLsbD j != (s.getV y).getLsbD j)))

/-- 42_alu.md R146: the carry is what `V[15]` ends as, also when `X == 15`. -/
def Obligations.AddRegistersSetsCarry : Prop :=
  (∀ x y : Reg, decodeWord (0x8#4 ++ regBits x ++ regBits y ++ 0x4#4) = .ok (.addReg x y)) ∧
  (∀ (x y : Reg) (s : State), ∃ t, exec (.addReg x y) s = .next t ∧
    (x ≠ 15 → (t.getV x).toNat = ((s.getV x).toNat + (s.getV y).toNat) % 256) ∧
    (t.getV 15).toNat = (if (s.getV x).toNat + (s.getV y).toNat > 255 then 1 else 0) ∧
    Frame { regs := [x, 15] } s t)

/-- 42_alu.md R147, R149: the flag is 1 when no borrow occurs, and is what `V[15]` ends as, also when `X == 15`. -/
def Obligations.SubtractionsSetNotBorrow : Prop :=
  (∀ x y : Reg, decodeWord (0x8#4 ++ regBits x ++ regBits y ++ 0x5#4) = .ok (.subReg x y) ∧
    decodeWord (0x8#4 ++ regBits x ++ regBits y ++ 0x7#4) = .ok (.rsbReg x y)) ∧
  (∀ (x y : Reg) (s : State),
    (∃ t, exec (.subReg x y) s = .next t ∧
      (x ≠ 15 → (t.getV x).toNat = ((s.getV x).toNat + 256 - (s.getV y).toNat) % 256) ∧
      (t.getV 15).toNat = (if (s.getV x).toNat ≥ (s.getV y).toNat then 1 else 0) ∧
      Frame { regs := [x, 15] } s t) ∧
    (∃ t, exec (.rsbReg x y) s = .next t ∧
      (x ≠ 15 → (t.getV x).toNat = ((s.getV y).toNat + 256 - (s.getV x).toNat) % 256) ∧
      (t.getV 15).toNat = (if (s.getV y).toNat ≥ (s.getV x).toNat then 1 else 0) ∧
      Frame { regs := [x, 15] } s t))

/-- 42_alu.md R148, R150, R153 (decisions D6, D7): `V[X]` is shifted in place, the `Y` bits are ignored, and the bit
shifted out is what `V[15]` ends as, also when `X == 15`. -/
def Obligations.ShiftsMoveOneBitIntoTheFlag : Prop :=
  (∀ (x : Reg) (ign : BitVec 4), decodeWord (0x8#4 ++ regBits x ++ ign ++ 0x6#4) = .ok (.shr x) ∧
    decodeWord (0x8#4 ++ regBits x ++ ign ++ 0xE#4) = .ok (.shl x)) ∧
  (∀ (x : Reg) (s : State),
    (∃ t, exec (.shr x) s = .next t ∧
      (x ≠ 15 → (t.getV x).toNat = (s.getV x).toNat / 2) ∧ (t.getV 15).toNat = (s.getV x).toNat % 2 ∧
      Frame { regs := [x, 15] } s t) ∧
    (∃ t, exec (.shl x) s = .next t ∧
      (x ≠ 15 → (t.getV x).toNat = 2 * (s.getV x).toNat % 256) ∧ (t.getV 15).toNat = (s.getV x).toNat / 128 ∧
      Frame { regs := [x, 15] } s t))

/-- 42_alu.md R151 (decision D21): some draw, masked with `NN`, is what `V[X]` receives; bits outside the mask are 0.
The draw is a free value (log entry 3), and the statement holds whatever it is. -/
def Obligations.RandStoresAMaskedDraw : Prop :=
  (∀ (x : Reg) (nn : Byte), decodeWord (0xC#4 ++ regBits x ++ nn) = .ok (.rand x nn)) ∧
  (∀ (x : Reg) (nn : Byte) (s : State), ∃ t, exec (.rand x nn) s = .next t ∧
    t.getV x = Config.randomDraw s.asked &&& nn ∧
    (∀ j, nn.getLsbD j = false → (t.getV x).getLsbD j = false) ∧
    t.asked = s.asked + 1 ∧ Frame { regs := [x], asked := true } s t)

/-! ## Index register and memory -/

/-- 43_index_memory.md R160: zero-extended to 16 bits. -/
def Obligations.MviLoadsTheIndex : Prop :=
  (∀ nnn : BitVec 12, decodeWord (0xA#4 ++ nnn) = .ok (.mvi nnn)) ∧
  (∀ (nnn : BitVec 12) (s : State), ∃ t, exec (.mvi nnn) s = .next t ∧
    t.i.toNat = nnn.toNat ∧ Frame { index := true } s t)

/-- 43_index_memory.md R161 (decision D9): modulo 65536, not masked to 12 bits, no flag. -/
def Obligations.AdiAddsToTheIndex : Prop :=
  (∀ x : Reg, decodeWord (0xF#4 ++ regBits x ++ 0x1E#8) = .ok (.adi x)) ∧
  (∀ (x : Reg) (s : State), ∃ t, exec (.adi x) s = .next t ∧
    t.i.toNat = (s.i.toNat + (s.getV x).toNat) % 65536 ∧ Frame { index := true } s t)

/-- 43_index_memory.md R162 (decision D11): five times `V[X]`, not reduced to 4 bits. -/
def Obligations.FontPointsAtTheGlyph : Prop :=
  (∀ x : Reg, decodeWord (0xF#4 ++ regBits x ++ 0x29#8) = .ok (.font x)) ∧
  (∀ (x : Reg) (s : State), ∃ t, exec (.font x) s = .next t ∧
    t.i.toNat = 5 * (s.getV x).toNat ∧ Frame { index := true } s t)

/-- 43_index_memory.md R163: hundreds, tens and ones at `I`, `I + 1`, `I + 2`, or a halt with no byte written. -/
def Obligations.BcdStoresTheDecimalDigits : Prop :=
  (∀ x : Reg, decodeWord (0xF#4 ++ regBits x ++ 0x33#8) = .ok (.bcd x)) ∧
  (∀ (x : Reg) (s : State), Memory.wf s.mem → s.i.toNat + 2 ≤ 4095 → ∃ t, exec (.bcd x) s = .next t ∧
    (t.readByte s.i.toNat).toNat = (s.getV x).toNat / 100 ∧
    (t.readByte (s.i.toNat + 1)).toNat = (s.getV x).toNat / 10 % 10 ∧
    (t.readByte (s.i.toNat + 2)).toNat = (s.getV x).toNat % 10 ∧
    Frame { memBase := s.i.toNat, memLen := 3 } s t) ∧
  (∀ (x : Reg) (s : State), 4095 < s.i.toNat + 2 → HaltsWith .dataRange (.bcd x) s)

/-- 43_index_memory.md R164: `V[0]` to `V[X]` at `I` upward, or a halt with no byte written. -/
def Obligations.StrStoresTheRegisters : Prop :=
  (∀ x : Reg, decodeWord (0xF#4 ++ regBits x ++ 0x55#8) = .ok (.str x)) ∧
  (∀ (x : Reg) (s : State), Memory.wf s.mem → s.i.toNat + x.val ≤ 4095 → ∃ t, exec (.str x) s = .next t ∧
    (∀ j : Reg, j ≤ x → t.readByte (s.i.toNat + j.val) = s.getV j) ∧
    Frame { memBase := s.i.toNat, memLen := x.val + 1 } s t) ∧
  (∀ (x : Reg) (s : State), 4095 < s.i.toNat + x.val → HaltsWith .dataRange (.str x) s)

/-- 43_index_memory.md R165: `V[0]` to `V[X]` from `I` upward, or a halt with no register written. -/
def Obligations.LdrLoadsTheRegisters : Prop :=
  (∀ x : Reg, decodeWord (0xF#4 ++ regBits x ++ 0x65#8) = .ok (.ldr x)) ∧
  (∀ (x : Reg) (s : State), s.i.toNat + x.val ≤ 4095 → ∃ t, exec (.ldr x) s = .next t ∧
    (∀ j : Reg, j ≤ x → t.getV j = s.readByte (s.i.toNat + j.val)) ∧
    Frame { regs := (List.finRange 16).filter (fun j => j ≤ x) } s t) ∧
  (∀ (x : Reg) (s : State), 4095 < s.i.toNat + x.val → HaltsWith .dataRange (.ldr x) s)

/-! ## Display -/

/-- 44_display.md R181: bits 11:8 are ignored; `V[15]` is not written. -/
def Obligations.ClsClearsTheDisplay : Prop :=
  (∀ ign : BitVec 4, decodeWord (0x0#4 ++ ign ++ 0xE0#8) = .ok .cls) ∧
  (∀ s : State, ∃ t, exec .cls s = .next t ∧ (∀ p, p ∉ t.fb) ∧ Frame { display := true } s t)

/-- 44_display.md R182 (decisions D6, D18, D19): every pixel the sprite covers is toggled, every other one stays, and
`V[15]` is 1 exactly if a covered pixel was on; `N == 0` draws 16 rows; the coordinates are those before `V[15]` is
written; past address 4095 it halts with nothing changed. -/
def Obligations.SpriteTogglesItsPixelsAndReportsCollision : Prop :=
  (∀ (x y : Reg) (n : BitVec 4), decodeWord (0xD#4 ++ regBits x ++ regBits y ++ n) = .ok (.sprite x y n)) ∧
  (∀ (x y : Reg) (n : BitVec 4) (s : State) (rows : Nat), rows = (if n = 0 then 16 else n.toNat) →
    s.i.toNat + rows - 1 ≤ 4095 → ∃ t, exec (.sprite x y n) s = .next t ∧
      (∀ p, SpriteCovers x y rows s p → (p ∈ t.fb ↔ p ∉ s.fb)) ∧
      (∀ p, ¬ SpriteCovers x y rows s p → (p ∈ t.fb ↔ p ∈ s.fb)) ∧
      ((∃ p, SpriteCovers x y rows s p ∧ p ∈ s.fb) → t.getV 15 = 1) ∧
      ((∀ p, SpriteCovers x y rows s p → p ∉ s.fb) → t.getV 15 = 0) ∧
      Frame { regs := [15], display := true } s t) ∧
  (∀ (x y : Reg) (n : BitVec 4) (s : State) (rows : Nat), rows = (if n = 0 then 16 else n.toNat) →
    4095 < s.i.toNat + rows - 1 → HaltsWith .dataRange (.sprite x y n) s)

/-! ## Keys and timers -/

/-- 45_keys_timers.md R190, R191, R196 (decision D20): one poll of key `V[X]`, answered by the host (a free value, log
entry 3), and false for a code above 15. -/
def Obligations.KeySkipsFollowThePoll : Prop :=
  (∀ x : Reg, decodeWord (0xE#4 ++ regBits x ++ 0x9E#8) = .ok (.skpr x) ∧
    decodeWord (0xE#4 ++ regBits x ++ 0xA1#8) = .ok (.skup x)) ∧
  (∀ (x : Reg) (s : State), ∃ down : Bool,
    ((s.getV x).toNat ≤ 15 → down = Config.keyAsserted s.asked (BitVec.ofNat 4 (s.getV x).toNat)) ∧
    (15 < (s.getV x).toNat → down = false) ∧
    (∃ t, exec (.skpr x) s = .next t ∧ t.pc = (if down then s.pc + 2 else s.pc) ∧ t.asked = s.asked + 1 ∧
      Frame { pc := true, asked := true } s t) ∧
    (∃ t, exec (.skup x) s = .next t ∧ t.pc = (if down then s.pc else s.pc + 2) ∧ t.asked = s.asked + 1 ∧
      Frame { pc := true, asked := true } s t))

/-- 45_keys_timers.md R192 (decisions D17, D24): `key VX` suspends the cycle; the event `KeyResolved(k)` writes `k` to
the register of the suspended instruction, runs the machine again, and completes that cycle: report and divider.
What the report and its snapshot hold is log entries 8 and 12. -/
def Obligations.KeyWaitsUntilAKeyIsResolved : Prop :=
  (∀ x : Reg, decodeWord (0xF#4 ++ regBits x ++ 0x0A#8) = .ok (.key x)) ∧
  (∀ (x : Reg) (s : State), ∃ t, exec (.key x) s = .next t ∧ t.status = .waiting x ∧
    Frame { status := true } s t) ∧
  (∀ (x : Reg) (k : BitVec 4) (s : State), s.status = .waiting x → s.inbox.head? = some (.keyResolved k) →
    ∃ t, step s = .next t ∧ (t.getV x).toNat = k.toNat ∧ t.status = .running ∧
      (∃ snap, t.trace = some (.executed (s.pc - 2) (.key x) false snap) ∧
        snap.pc = s.pc ∧ snap.i = s.i ∧ snap.sp = s.sp ∧ snap.v = t.v) ∧
      (s.params.timerMode = .external → t.cyc = s.cyc ∧ t.dt = s.dt ∧ t.st = s.st ∧ t.beeps = s.beeps) ∧
      (s.params.timerMode = .divided → t.cyc.val = (s.cyc.val + 1) % 5 ∧
        t.dt.toNat = s.dt.toNat - (if s.cyc.val = 4 then 1 else 0) ∧
        t.st.toNat = s.st.toNat - (if s.cyc.val = 4 then 1 else 0) ∧
        t.beeps = s.beeps + (if s.cyc.val = 4 ∧ s.st.toNat = 1 then 1 else 0)) ∧
      Frame { regs := [x], status := true, trace := true, divider := true, delay := true, sound := true,
              beeps := true } s.eventTaken t)

/-- 45_keys_timers.md R193, R194, R195: the delay timer is read and set, the sound timer is set, whole bytes. -/
def Obligations.TimerInstructionsMoveWholeBytes : Prop :=
  (∀ x : Reg, decodeWord (0xF#4 ++ regBits x ++ 0x07#8) = .ok (.gdelay x) ∧
    decodeWord (0xF#4 ++ regBits x ++ 0x15#8) = .ok (.sdelay x) ∧
    decodeWord (0xF#4 ++ regBits x ++ 0x18#8) = .ok (.ssound x)) ∧
  (∀ (x : Reg) (s : State),
    (∃ t, exec (.gdelay x) s = .next t ∧ t.getV x = s.dt ∧ Frame { regs := [x] } s t) ∧
    (∃ t, exec (.sdelay x) s = .next t ∧ t.dt = s.getV x ∧ Frame { delay := true } s t) ∧
    (∃ t, exec (.ssound x) s = .next t ∧ t.st = s.getV x ∧ Frame { sound := true } s t))
end

