-- ==== Sys2Proof/Laws/Decode.lean ====
section
/-! SUPPORT. The fields and the key of a word written in one of the formats of 30_encoding.md R74, and the shape of the
opcode table (R73, R75). -/

namespace Sys2Proof

/-! ## Bits of a format -/

theorem getLsbD_formatA (g : BitVec 4) (nnn : BitVec 12) (i : Nat) :
    (formatA g nnn).getLsbD i = if i < 12 then nnn.getLsbD i else g.getLsbD (i - 12) :=
  BitVec.getLsbD_append

theorem getLsbD_formatXK (g : BitVec 4) (x : Reg) (nn : Byte) (i : Nat) :
    (formatXK g x nn).getLsbD i =
      if i < 8 then nn.getLsbD i
      else if i - 8 < 4 then (BitVec.ofFin (w := 4) x).getLsbD (i - 8)
      else g.getLsbD (i - 8 - 4) := by
  refine BitVec.getLsbD_append.trans ?_
  rw [BitVec.getLsbD_append]

theorem getLsbD_formatXYN (g : BitVec 4) (x y : Reg) (n : BitVec 4) (i : Nat) :
    (formatXYN g x y n).getLsbD i =
      if i < 4 then n.getLsbD i
      else if i - 4 < 4 then (BitVec.ofFin (w := 4) y).getLsbD (i - 4)
      else if i - 4 - 4 < 4 then (BitVec.ofFin (w := 4) x).getLsbD (i - 4 - 4)
      else g.getLsbD (i - 4 - 4 - 4) := by
  refine BitVec.getLsbD_append.trans ?_
  rw [BitVec.getLsbD_append, BitVec.getLsbD_append]

/-! ## Fields of a format (R71) -/

@[simp] theorem fieldG_formatA (g : BitVec 4) (nnn : BitVec 12) : fieldG (formatA g nnn) = g := by
  apply BitVec.eq_of_getLsbD_eq
  intro i hi
  simp [fieldG, getLsbD_formatA, hi]

@[simp] theorem fieldNNN_formatA (g : BitVec 4) (nnn : BitVec 12) : fieldNNN (formatA g nnn) = nnn := by
  apply BitVec.eq_of_getLsbD_eq
  intro i hi
  simp [fieldNNN, getLsbD_formatA, hi]

@[simp] theorem fieldG_formatXK (g : BitVec 4) (x : Reg) (nn : Byte) : fieldG (formatXK g x nn) = g := by
  apply BitVec.eq_of_getLsbD_eq
  intro i hi
  simp only [fieldG, BitVec.getLsbD_extractLsb', getLsbD_formatXK, hi, decide_true, Bool.true_and]
  rw [if_neg (by omega), if_neg (by omega)]
  congr 1
  omega

@[simp] theorem fieldX_formatXK (g : BitVec 4) (x : Reg) (nn : Byte) : fieldX (formatXK g x nn) = x := by
  have : (formatXK g x nn).extractLsb' 8 4 = BitVec.ofFin (w := 4) x := by
    apply BitVec.eq_of_getLsbD_eq
    intro i hi
    simp [getLsbD_formatXK, hi]
  simp [fieldX, this]

@[simp] theorem fieldNN_formatXK (g : BitVec 4) (x : Reg) (nn : Byte) : fieldNN (formatXK g x nn) = nn := by
  apply BitVec.eq_of_getLsbD_eq
  intro i hi
  simp [fieldNN, getLsbD_formatXK, hi]

/-- `XYN` is `XK` with `Y` and `N` as the low byte. -/
theorem formatXYN_eq_formatXK (g : BitVec 4) (x y : Reg) (n : BitVec 4) :
    formatXYN g x y n = formatXK g x (BitVec.ofFin (w := 4) y ++ n) := by
  apply BitVec.eq_of_getLsbD_eq
  intro i hi
  have low : (BitVec.ofFin (w := 4) y ++ n : Byte).getLsbD i =
      if i < 4 then n.getLsbD i else (BitVec.ofFin (w := 4) y).getLsbD (i - 4) := BitVec.getLsbD_append
  rw [getLsbD_formatXYN, getLsbD_formatXK, low]
  interval_cases i <;> simp

@[simp] theorem fieldG_formatXYN (g : BitVec 4) (x y : Reg) (n : BitVec 4) : fieldG (formatXYN g x y n) = g := by
  rw [formatXYN_eq_formatXK, fieldG_formatXK]

@[simp] theorem fieldX_formatXYN (g : BitVec 4) (x y : Reg) (n : BitVec 4) : fieldX (formatXYN g x y n) = x := by
  rw [formatXYN_eq_formatXK, fieldX_formatXK]

@[simp] theorem fieldY_formatXYN (g : BitVec 4) (x y : Reg) (n : BitVec 4) : fieldY (formatXYN g x y n) = y := by
  have : (formatXYN g x y n).extractLsb' 4 4 = BitVec.ofFin (w := 4) y := by
    apply BitVec.eq_of_getLsbD_eq
    intro i hi
    simp [getLsbD_formatXYN, hi]
  simp [fieldY, this]

@[simp] theorem fieldN_formatXYN (g : BitVec 4) (x y : Reg) (n : BitVec 4) : fieldN (formatXYN g x y n) = n := by
  apply BitVec.eq_of_getLsbD_eq
  intro i hi
  simp [fieldN, getLsbD_formatXYN, hi]

/-! ## The key of a format (R72, R73) -/

/-- A group whose mask is 0xF000. -/
def plainGroup (g : BitVec 4) : Bool := g != 0x8 && g != 0x0 && g != 0xE && g != 0xF

/-- A group whose mask is 0xF0FF. -/
def byteGroup (g : BitVec 4) : Bool := g == 0x0 || g == 0xE || g == 0xF

theorem maskOf_plain {op : Word} (h : plainGroup (fieldG op) = true) : maskOf op = 0xF000 := by
  simp only [plainGroup, Bool.and_eq_true, bne_iff_ne, ne_eq] at h
  simp only [maskOf, h, if_false, or_self]

theorem maskOf_byte {op : Word} (h : byteGroup (fieldG op) = true) : maskOf op = 0xF0FF := by
  simp only [byteGroup, Bool.or_eq_true, beq_iff_eq] at h
  have h8 : fieldG op ≠ 0x8 := by rintro e; rw [e] at h; revert h; decide
  unfold maskOf
  rw [if_neg h8, if_pos (by tauto)]

theorem maskOf_group8 {op : Word} (h : fieldG op = 0x8) : maskOf op = 0xF00F := by simp [maskOf, h]

theorem keyOf_formatA {g : BitVec 4} (h : plainGroup g = true) (nnn : BitVec 12) :
    keyOf (formatA g nnn) = formatA g 0 := by
  rw [keyOf, maskOf_plain (by simpa using h)]
  apply BitVec.eq_of_getLsbD_eq
  intro i hi
  rw [BitVec.getLsbD_and, getLsbD_formatA, getLsbD_formatA]
  interval_cases i <;> simp

theorem keyOf_formatXK_plain {g : BitVec 4} (h : plainGroup g = true) (x : Reg) (nn : Byte) :
    keyOf (formatXK g x nn) = formatXK g 0 0 := by
  rw [keyOf, maskOf_plain (by simpa using h)]
  apply BitVec.eq_of_getLsbD_eq
  intro i hi
  rw [BitVec.getLsbD_and, getLsbD_formatXK, getLsbD_formatXK]
  interval_cases i <;> simp

theorem keyOf_formatXK_byte {g : BitVec 4} (h : byteGroup g = true) (x : Reg) (nn : Byte) :
    keyOf (formatXK g x nn) = formatXK g 0 nn := by
  rw [keyOf, maskOf_byte (by simpa using h)]
  apply BitVec.eq_of_getLsbD_eq
  intro i hi
  rw [BitVec.getLsbD_and, getLsbD_formatXK, getLsbD_formatXK]
  interval_cases i <;> simp

theorem keyOf_formatXYN_plain {g : BitVec 4} (h : plainGroup g = true) (x y : Reg) (n : BitVec 4) :
    keyOf (formatXYN g x y n) = formatXYN g 0 0 0 := by
  rw [keyOf, maskOf_plain (by simpa using h)]
  apply BitVec.eq_of_getLsbD_eq
  intro i hi
  rw [BitVec.getLsbD_and, getLsbD_formatXYN, getLsbD_formatXYN]
  interval_cases i <;> simp

theorem keyOf_formatXYN_group8 (x y : Reg) (n : BitVec 4) :
    keyOf (formatXYN 0x8 x y n) = formatXYN 0x8 0 0 n := by
  rw [keyOf, maskOf_group8 (by simp)]
  apply BitVec.eq_of_getLsbD_eq
  intro i hi
  rw [BitVec.getLsbD_and, getLsbD_formatXYN, getLsbD_formatXYN]
  interval_cases i <;> simp

/-! ## Every word is in a format -/

/-- A word is its group, its `X` and its low byte (R71). -/
theorem eq_formatXK (op : Word) : op = formatXK (fieldG op) (fieldX op) (fieldNN op) := by
  apply BitVec.eq_of_getLsbD_eq
  intro i hi
  have hx : BitVec.ofFin (w := 4) (fieldX op) = op.extractLsb' 8 4 := rfl
  rw [getLsbD_formatXK, hx]
  interval_cases i <;> simp [fieldG, fieldNN]

/-- A word is its group and its `NNN` (R71). -/
theorem eq_formatA (op : Word) : op = formatA (fieldG op) (fieldNNN op) := by
  apply BitVec.eq_of_getLsbD_eq
  intro i hi
  rw [getLsbD_formatA]
  interval_cases i <;> simp [fieldG, fieldNNN]

/-- A word is its group, `X`, `Y` and `N` (R71). -/
theorem eq_formatXYN (op : Word) : op = formatXYN (fieldG op) (fieldX op) (fieldY op) (fieldN op) := by
  apply BitVec.eq_of_getLsbD_eq
  intro i hi
  have hx : BitVec.ofFin (w := 4) (fieldX op) = op.extractLsb' 8 4 := rfl
  have hy : BitVec.ofFin (w := 4) (fieldY op) = op.extractLsb' 4 4 := rfl
  rw [getLsbD_formatXYN, hx, hy]
  interval_cases i <;> simp [fieldG, fieldN]

/-- The fields as numbers (R71). -/
theorem toNat_fieldG (op : Word) : (fieldG op).toNat = op.toNat / 4096 := by
  have := op.isLt
  simp only [fieldG, BitVec.extractLsb'_toNat, Nat.shiftRight_eq_div_pow]
  omega

theorem toNat_fieldNN (op : Word) : (fieldNN op).toNat = op.toNat % 256 := by
  simp [fieldNN]

theorem toNat_fieldN (op : Word) : (fieldN op).toNat = op.toNat % 16 := by
  simp [fieldN]

/-! ## The two bytes of an opcode -/

/-- An opcode is its two bytes, the high one first (20_memory.md R54). -/
@[simp] theorem opcodeOfBytes_high_low (op : Word) : opcodeOfBytes (highByte op) (lowByte op) = op := by
  apply BitVec.eq_of_getLsbD_eq
  intro i hi
  have : (opcodeOfBytes (highByte op) (lowByte op)).getLsbD i =
      if i < 8 then (lowByte op).getLsbD i else (highByte op).getLsbD (i - 8) := BitVec.getLsbD_append
  rw [this]
  split
  · simp [lowByte, *]
  · have e : 8 + (i - 8) = i := by omega
    have e2 : i - 8 < 8 := by omega
    simp [highByte, e, e2]

/-! ## The table -/

/-- The opcode table has 34 rows (R75). -/
theorem opcodeTable_length : opcodeTable.length = 34 := by decide

end Sys2Proof
end

