-- ==== Sys2Proof/Laws/Framebuffer.lean ====
section
/-! SUPPORT. The laws of the display's pixel set (44_display.md R180, R184): a get after a toggle, and that every
operation keeps the canonical form, so that equal sets are equal lists. -/

namespace Sys2Proof.Machine

theorem Pixel.before_iff (p q : Pixel) : p.before q = true ↔ p.y < q.y ∨ (p.y = q.y ∧ p.x < q.x) := by
  simp [Pixel.before]

theorem Pixel.before_irrefl (p : Pixel) : ¬ p.before p = true := by simp [Pixel.before_iff]

theorem Pixel.before_trans {p q r : Pixel} (h1 : p.before q = true) (h2 : q.before r = true) :
    p.before r = true := by
  rw [Pixel.before_iff] at *; omega

theorem Pixel.before_of_not {p q : Pixel} (h : ¬ p.before q = true) (hne : p ≠ q) : q.before p = true := by
  obtain ⟨px, py⟩ := p
  obtain ⟨qx, qy⟩ := q
  simp only [Pixel.before_iff, ne_eq, Pixel.mk.injEq] at *
  omega

/-- Adding a pixel adds that pixel. -/
theorem mem_fbInsert {p q : Pixel} {fb : List Pixel} : q ∈ fbInsert p fb ↔ q = p ∨ q ∈ fb := by
  induction fb with
  | nil => simp [fbInsert]
  | cons r fb ih =>
    unfold fbInsert
    split
    · simp
    · split
      · rename_i h; subst h; simp
      · simp only [List.mem_cons, ih]; tauto

/-- Taking a pixel out takes out that pixel. -/
theorem mem_fbRemove {p q : Pixel} {fb : List Pixel} : q ∈ fbRemove p fb ↔ q ∈ fb ∧ q ≠ p := by
  simp [fbRemove]

theorem fbWf_insert {fb : List Pixel} (h : fbWf fb) (p : Pixel) : fbWf (fbInsert p fb) := by
  induction fb with
  | nil => simp [fbInsert, fbWf]
  | cons q fb ih =>
    obtain ⟨hq, hrest⟩ := List.pairwise_cons.mp h
    unfold fbInsert
    split
    · rename_i hpq
      refine List.pairwise_cons.mpr ⟨?_, h⟩
      intro r hr
      rcases List.mem_cons.mp hr with rfl | hr
      · exact hpq
      · exact Pixel.before_trans hpq (hq r hr)
    · split
      · exact h
      · rename_i hpq hne
        refine List.pairwise_cons.mpr ⟨?_, ih hrest⟩
        intro r hr
        rcases mem_fbInsert.mp hr with rfl | hr
        · exact Pixel.before_of_not hpq hne
        · exact hq r hr

theorem fbWf_remove {fb : List Pixel} (h : fbWf fb) (p : Pixel) : fbWf (fbRemove p fb) :=
  List.Pairwise.filter _ h

theorem fbWf_toggle {fb : List Pixel} (h : fbWf fb) (mode : Config.DisplayNorm) (p : Pixel) :
    fbWf (fbToggle mode fb p) := by
  unfold fbToggle
  split
  · exact h
  · split
    · exact fbWf_remove h _
    · exact fbWf_insert h _

/-- Two canonical sets with the same pixels are the same list. -/
theorem fb_ext {f g : List Pixel} (hf : fbWf f) (hg : fbWf g) (h : ∀ p, p ∈ f ↔ p ∈ g) : f = g := by
  refine List.Perm.eq_of_pairwise (le := fun p q => p.before q = true) ?_ hf hg ?_
  · intro a b _ _ h1 h2; exact absurd (Pixel.before_trans h1 h2) (Pixel.before_irrefl a)
  · refine (List.perm_ext_iff_of_nodup ?_ ?_).mpr h
    · exact hf.imp (fun hab e => by subst e; exact Pixel.before_irrefl _ hab)
    · exact hg.imp (fun hab e => by subst e; exact Pixel.before_irrefl _ hab)

/-- What a toggle does to a pixel of the set (44_display.md R180). -/
theorem mem_fbToggle {mode : Config.DisplayNorm} {fb : List Pixel} {p q : Pixel} :
    q ∈ fbToggle mode fb p ↔ (if normPixel mode p = some q then q ∉ fb else q ∈ fb) := by
  unfold fbToggle
  cases hn : normPixel mode p with
  | none => simp
  | some r =>
    by_cases hr : r ∈ fb
    · simp only [List.contains_iff_mem, hr, if_true, mem_fbRemove]
      by_cases hq : q = r
      · subst hq; simp [hr]
      · simp [hq, Ne.symm hq]
    · simp only [List.contains_iff_mem, hr, if_false, mem_fbInsert]
      by_cases hq : q = r
      · subst hq; simp [hr]
      · simp [hq, Ne.symm hq]

/-- Inside the grid `norm` is the identity, whatever `DISPLAY_NORM` is (44_display.md R184). -/
theorem normPixel_inGrid (mode : Config.DisplayNorm) (p : Pixel) (h : p.inGrid = true) : normPixel mode p = some p := by
  cases mode with
  | store => rfl
  | wrap =>
    simp only [Pixel.inGrid, Bool.and_eq_true, decide_eq_true_eq] at h
    simp [normPixel, Nat.mod_eq_of_lt h.1, Nat.mod_eq_of_lt h.2]
  | clip => simp [normPixel, h]

/-- What `norm` answers is its own normal form. -/
theorem normPixel_idem {mode : Config.DisplayNorm} {p q : Pixel} (h : normPixel mode p = some q) :
    normPixel mode q = some q := by
  cases mode with
  | store => rfl
  | wrap =>
    simp only [normPixel, Option.some.injEq] at h
    subst h; simp [normPixel]
  | clip =>
    simp only [normPixel] at h
    split at h
    · cases h; simp_all [normPixel]
    · cases h

end Sys2Proof.Machine
end

