-- ==== Sys2Proof/Laws/Memory.lean ====
section
/-! SUPPORT. The laws of the memory image (20_memory.md): a read after a write, runs of bytes, and that every operation
keeps the canonical form. -/

namespace Sys2Proof.Machine

theorem Memory.read_nil (a : Nat) : Memory.read [] a = Memory.initial a := rfl

/-- Putting a pair in front makes its address read as its byte, if it lies below the listed ones. -/
theorem Memory.read_cons (a : Nat) (v : Byte) (m : Memory) (h : ∀ p ∈ m, a < p.1) (c : Nat) :
    Memory.read (Memory.cons a v m) c = if c = a then v else Memory.read m c := by
  have notListed : ∀ m : Memory, (∀ p ∈ m, a < p.1) → Memory.read m a = Memory.initial a := by
    intro m
    induction m with
    | nil => intro _; rfl
    | cons p m ih =>
      intro hp
      have h1 := hp p (by simp)
      simp only [Memory.read, if_neg (Nat.ne_of_lt h1)]
      exact ih (fun q hq => hp q (by simp [hq]))
  unfold Memory.cons
  split
  · split
    · subst c; rw [notListed m h]; exact Eq.symm ‹_›
    · rfl
  · simp [Memory.read]

/-- A read after a write (20_memory.md R60): the byte written at its address, the old byte elsewhere. -/
theorem Memory.read_write (m : Memory) (hm : m.Pairwise (fun p q => p.1 < q.1)) (a : Nat) (v : Byte) (c : Nat) :
    Memory.read (Memory.write m a v) c = if c = a then v else Memory.read m c := by
  induction m with
  | nil => simpa [Memory.write] using Memory.read_cons a v [] (by simp) c
  | cons p m ih =>
    obtain ⟨b, w⟩ := p
    have hb : ∀ q ∈ m, b < q.1 := fun q hq => (List.pairwise_cons.mp hm).1 q hq
    unfold Memory.write
    split
    · rename_i hab
      refine Memory.read_cons a v _ ?_ c
      intro q hq
      rcases List.mem_cons.mp hq with rfl | hq
      · exact hab
      · exact Nat.lt_trans hab (hb q hq)
    · split
      · rename_i hab
        subst hab
        rw [Memory.read_cons a v m hb c]
        by_cases hc : c = a <;> simp [Memory.read, hc]
      · rename_i h1 h2
        simp only [Memory.read, ih (List.pairwise_cons.mp hm).2]
        by_cases hc : c = b
        · simp [hc, Ne.symm h2]
        · simp [hc]

/-- The addresses a write lists: those listed before, and its own. -/
theorem Memory.mem_write {m : Memory} {a : Nat} {v : Byte} {p : Host.Cell} (h : p ∈ Memory.write m a v) :
    p ∈ m ∨ (p = (a, v) ∧ v ≠ Memory.initial a) := by
  have hcons : ∀ m : Memory, p ∈ Memory.cons a v m → p ∈ m ∨ (p = (a, v) ∧ v ≠ Memory.initial a) := by
    intro m hp
    unfold Memory.cons at hp
    split at hp
    · exact .inl hp
    · rcases List.mem_cons.mp hp with rfl | hp
      · exact .inr ⟨rfl, ‹_›⟩
      · exact .inl hp
  induction m with
  | nil => simpa using hcons [] h
  | cons q m ih =>
    unfold Memory.write at h
    split at h
    · exact hcons _ h
    · split at h
      · rcases hcons _ h with h | h
        · exact .inl (List.mem_cons_of_mem _ h)
        · exact .inr h
      · rcases List.mem_cons.mp h with rfl | h
        · exact .inl (by simp)
        · rcases ih h with h | h
          · exact .inl (List.mem_cons_of_mem _ h)
          · exact .inr h

/-- A write keeps the canonical form. -/
theorem Memory.wf_write {m : Memory} (hm : Memory.wf m) {a : Nat} (ha : a < Config.memSize) (v : Byte) :
    Memory.wf (Memory.write m a v) := by
  refine ⟨?_, ?_⟩
  · have hsorted := hm.1
    clear hm ha
    have hcons : ∀ m : Memory, m.Pairwise (fun p q => p.1 < q.1) → (∀ p ∈ m, a < p.1) →
        (Memory.cons a v m).Pairwise (fun p q => p.1 < q.1) := by
      intro m hp hlt
      unfold Memory.cons
      split
      · exact hp
      · exact List.pairwise_cons.mpr ⟨hlt, hp⟩
    induction m with
    | nil => exact hcons [] List.Pairwise.nil (by simp)
    | cons p m ih =>
      obtain ⟨hb, hrest⟩ := List.pairwise_cons.mp hsorted
      unfold Memory.write
      split
      · rename_i hab
        refine hcons _ hsorted ?_
        intro q hq
        rcases List.mem_cons.mp hq with rfl | hq
        · exact hab
        · exact Nat.lt_trans hab (hb q hq)
      · split
        · rename_i hab
          subst hab
          exact hcons m hrest hb
        · rename_i h1 h2
          refine List.pairwise_cons.mpr ⟨?_, ih hrest⟩
          intro q hq
          rcases Memory.mem_write hq with hq | ⟨rfl, _⟩
          · exact hb q hq
          · simp only at *; omega
  · intro p hp
    rcases Memory.mem_write hp with hp | ⟨rfl, hv⟩
    · exact hm.2 p hp
    · exact ⟨ha, hv⟩

/-- A run of writes keeps the canonical form, if it stays in memory. -/
theorem Memory.wf_writeBytes {m : Memory} (hm : Memory.wf m) {a : Nat} {bs : List Byte}
    (ha : a + bs.length ≤ Config.memSize) : Memory.wf (Memory.writeBytes m a bs) := by
  induction bs generalizing m a with
  | nil => exact hm
  | cons b bs ih =>
    simp only [List.length_cons] at ha
    exact ih (Memory.wf_write hm (by omega) b) (by omega)

theorem Memory.wf_nil : Memory.wf [] := by simp [Memory.wf]

/-- The loaded memory is canonical (70_reset_and_hazards.md R251). -/
theorem Memory.wf_loadRom {rom : List Byte} (h : rom.length ≤ Config.romMax) : Memory.wf (Memory.loadRom rom) :=
  Memory.wf_writeBytes Memory.wf_nil (by simp only [Config.romMax, Config.memSize, Config.progBase] at *; omega)

/-- What every address reads as after a run of writes: byte `j` at `a + j`, the rest as before (20_memory.md R55, R60). -/
theorem Memory.read_writeBytes {m : Memory} (hm : Memory.wf m) {a : Nat} {bs : List Byte}
    (ha : a + bs.length ≤ Config.memSize) (c : Nat) :
    Memory.read (Memory.writeBytes m a bs) c =
      if h : a ≤ c ∧ c - a < bs.length then bs[c - a]'h.2 else Memory.read m c := by
  induction bs generalizing m a with
  | nil => simp [Memory.writeBytes]
  | cons b bs ih =>
    simp only [List.length_cons] at ha
    simp only [Memory.writeBytes]
    rw [ih (Memory.wf_write hm (by omega) b) (by omega), Memory.read_write m hm.1]
    by_cases hc : c = a
    · subst hc; simp
    · by_cases hle : a ≤ c
      · have e : c - a = (c - (a + 1)) + 1 := by omega
        by_cases hlt : c - (a + 1) < bs.length
        · rw [dif_pos ⟨by omega, hlt⟩, dif_pos ⟨hle, by simp; omega⟩]; simp [e]
        · rw [dif_neg (by omega), dif_neg (by simp; omega), if_neg hc]
      · rw [dif_neg (by omega), dif_neg (by omega), if_neg hc]

/-- A run of reads has its length. -/
@[simp] theorem Memory.length_readBytes (m : Memory) (a n : Nat) : (Memory.readBytes m a n).length = n := by
  induction n generalizing a with
  | zero => rfl
  | succ n ih => simp [Memory.readBytes, ih]

/-- Byte `j` of a run of reads is the byte at `a + j` (20_memory.md R55). -/
@[simp] theorem Memory.getElem_readBytes (m : Memory) (a n j : Nat) (h : j < (Memory.readBytes m a n).length) :
    (Memory.readBytes m a n)[j] = Memory.read m (a + j) := by
  induction n generalizing a j with
  | zero => simp at h
  | succ n ih =>
    cases j with
    | zero => rfl
    | succ j => simp only [Memory.readBytes, List.getElem_cons_succ]; rw [ih]; congr 1; omega

end Sys2Proof.Machine
end

