-- ==== Sys2Proof/Laws/State.lean ====
section
/-! SUPPORT. What each update of the state leaves, one lemma per field, and the read-over-write laws of the
registers. Later proofs use these and unfold no update. -/

namespace Sys2Proof.Machine

/-! ### A register write changes `v` only (00_scope.md R6) -/

@[simp] theorem setV_v (s : State) (r : Reg) (b : Byte) : (s.setV r b).v = s.v.set r b := rfl
@[simp] theorem setV_i (s : State) (r : Reg) (b : Byte) : (s.setV r b).i = s.i := rfl
@[simp] theorem setV_pc (s : State) (r : Reg) (b : Byte) : (s.setV r b).pc = s.pc := rfl
@[simp] theorem setV_sp (s : State) (r : Reg) (b : Byte) : (s.setV r b).sp = s.sp := rfl
@[simp] theorem setV_stack (s : State) (r : Reg) (b : Byte) : (s.setV r b).stack = s.stack := rfl
@[simp] theorem setV_dt (s : State) (r : Reg) (b : Byte) : (s.setV r b).dt = s.dt := rfl
@[simp] theorem setV_st (s : State) (r : Reg) (b : Byte) : (s.setV r b).st = s.st := rfl
@[simp] theorem setV_mem (s : State) (r : Reg) (b : Byte) : (s.setV r b).mem = s.mem := rfl
@[simp] theorem setV_status (s : State) (r : Reg) (b : Byte) : (s.setV r b).status = s.status := rfl
@[simp] theorem setV_cyc (s : State) (r : Reg) (b : Byte) : (s.setV r b).cyc = s.cyc := rfl
@[simp] theorem setV_fb (s : State) (r : Reg) (b : Byte) : (s.setV r b).fb = s.fb := rfl
@[simp] theorem setV_beeps (s : State) (r : Reg) (b : Byte) : (s.setV r b).beeps = s.beeps := rfl
@[simp] theorem setV_trace (s : State) (r : Reg) (b : Byte) : (s.setV r b).trace = s.trace := rfl
@[simp] theorem setV_params (s : State) (r : Reg) (b : Byte) : (s.setV r b).params = s.params := rfl
@[simp] theorem setV_inbox (s : State) (r : Reg) (b : Byte) : (s.setV r b).inbox = s.inbox := rfl
@[simp] theorem setV_asked (s : State) (r : Reg) (b : Byte) : (s.setV r b).asked = s.asked := rfl

/-! ### A skip changes `pc` only (41_control_flow.md R129) -/

@[simp] theorem skipIf_v (s : State) (c : Bool) : (s.skipIf c).v = s.v := rfl
@[simp] theorem skipIf_i (s : State) (c : Bool) : (s.skipIf c).i = s.i := rfl
@[simp] theorem skipIf_pc (s : State) (c : Bool) : (s.skipIf c).pc = if c then s.pc + 2 else s.pc := rfl
@[simp] theorem skipIf_sp (s : State) (c : Bool) : (s.skipIf c).sp = s.sp := rfl
@[simp] theorem skipIf_stack (s : State) (c : Bool) : (s.skipIf c).stack = s.stack := rfl
@[simp] theorem skipIf_dt (s : State) (c : Bool) : (s.skipIf c).dt = s.dt := rfl
@[simp] theorem skipIf_st (s : State) (c : Bool) : (s.skipIf c).st = s.st := rfl
@[simp] theorem skipIf_mem (s : State) (c : Bool) : (s.skipIf c).mem = s.mem := rfl
@[simp] theorem skipIf_status (s : State) (c : Bool) : (s.skipIf c).status = s.status := rfl
@[simp] theorem skipIf_cyc (s : State) (c : Bool) : (s.skipIf c).cyc = s.cyc := rfl
@[simp] theorem skipIf_fb (s : State) (c : Bool) : (s.skipIf c).fb = s.fb := rfl
@[simp] theorem skipIf_beeps (s : State) (c : Bool) : (s.skipIf c).beeps = s.beeps := rfl
@[simp] theorem skipIf_trace (s : State) (c : Bool) : (s.skipIf c).trace = s.trace := rfl
@[simp] theorem skipIf_params (s : State) (c : Bool) : (s.skipIf c).params = s.params := rfl
@[simp] theorem skipIf_inbox (s : State) (c : Bool) : (s.skipIf c).inbox = s.inbox := rfl
@[simp] theorem skipIf_asked (s : State) (c : Bool) : (s.skipIf c).asked = s.asked := rfl

/-! ### Taking an external answer changes `asked` only -/

@[simp] theorem answered_v (s : State) : (s.answered).v = s.v := rfl
@[simp] theorem answered_i (s : State) : (s.answered).i = s.i := rfl
@[simp] theorem answered_pc (s : State) : (s.answered).pc = s.pc := rfl
@[simp] theorem answered_sp (s : State) : (s.answered).sp = s.sp := rfl
@[simp] theorem answered_stack (s : State) : (s.answered).stack = s.stack := rfl
@[simp] theorem answered_dt (s : State) : (s.answered).dt = s.dt := rfl
@[simp] theorem answered_st (s : State) : (s.answered).st = s.st := rfl
@[simp] theorem answered_mem (s : State) : (s.answered).mem = s.mem := rfl
@[simp] theorem answered_status (s : State) : (s.answered).status = s.status := rfl
@[simp] theorem answered_cyc (s : State) : (s.answered).cyc = s.cyc := rfl
@[simp] theorem answered_fb (s : State) : (s.answered).fb = s.fb := rfl
@[simp] theorem answered_beeps (s : State) : (s.answered).beeps = s.beeps := rfl
@[simp] theorem answered_trace (s : State) : (s.answered).trace = s.trace := rfl
@[simp] theorem answered_params (s : State) : (s.answered).params = s.params := rfl
@[simp] theorem answered_inbox (s : State) : (s.answered).inbox = s.inbox := rfl
@[simp] theorem answered_asked (s : State) : (s.answered).asked = s.asked + 1 := rfl

/-! ### The advance of step 1b changes `pc` only (40_dispatcher_cycle.md R103) -/

@[simp] theorem advancePc_v (s : State) : (s.advancePc).v = s.v := rfl
@[simp] theorem advancePc_i (s : State) : (s.advancePc).i = s.i := rfl
@[simp] theorem advancePc_pc (s : State) : (s.advancePc).pc = s.pc + 2 := rfl
@[simp] theorem advancePc_sp (s : State) : (s.advancePc).sp = s.sp := rfl
@[simp] theorem advancePc_stack (s : State) : (s.advancePc).stack = s.stack := rfl
@[simp] theorem advancePc_dt (s : State) : (s.advancePc).dt = s.dt := rfl
@[simp] theorem advancePc_st (s : State) : (s.advancePc).st = s.st := rfl
@[simp] theorem advancePc_mem (s : State) : (s.advancePc).mem = s.mem := rfl
@[simp] theorem advancePc_status (s : State) : (s.advancePc).status = s.status := rfl
@[simp] theorem advancePc_cyc (s : State) : (s.advancePc).cyc = s.cyc := rfl
@[simp] theorem advancePc_fb (s : State) : (s.advancePc).fb = s.fb := rfl
@[simp] theorem advancePc_beeps (s : State) : (s.advancePc).beeps = s.beeps := rfl
@[simp] theorem advancePc_trace (s : State) : (s.advancePc).trace = s.trace := rfl
@[simp] theorem advancePc_params (s : State) : (s.advancePc).params = s.params := rfl
@[simp] theorem advancePc_inbox (s : State) : (s.advancePc).inbox = s.inbox := rfl
@[simp] theorem advancePc_asked (s : State) : (s.advancePc).asked = s.asked := rfl

/-! ### A halt changes `status` and `trace` only (60_exceptions.md R211) -/

@[simp] theorem raiseHalt_v (r : HaltReason) (a : Word) (s : State) : (raiseHalt r a s).v = s.v := rfl
@[simp] theorem raiseHalt_i (r : HaltReason) (a : Word) (s : State) : (raiseHalt r a s).i = s.i := rfl
@[simp] theorem raiseHalt_pc (r : HaltReason) (a : Word) (s : State) : (raiseHalt r a s).pc = s.pc := rfl
@[simp] theorem raiseHalt_sp (r : HaltReason) (a : Word) (s : State) : (raiseHalt r a s).sp = s.sp := rfl
@[simp] theorem raiseHalt_stack (r : HaltReason) (a : Word) (s : State) : (raiseHalt r a s).stack = s.stack := rfl
@[simp] theorem raiseHalt_dt (r : HaltReason) (a : Word) (s : State) : (raiseHalt r a s).dt = s.dt := rfl
@[simp] theorem raiseHalt_st (r : HaltReason) (a : Word) (s : State) : (raiseHalt r a s).st = s.st := rfl
@[simp] theorem raiseHalt_mem (r : HaltReason) (a : Word) (s : State) : (raiseHalt r a s).mem = s.mem := rfl
@[simp] theorem raiseHalt_status (r : HaltReason) (a : Word) (s : State) : (raiseHalt r a s).status = .halted r a := rfl
@[simp] theorem raiseHalt_cyc (r : HaltReason) (a : Word) (s : State) : (raiseHalt r a s).cyc = s.cyc := rfl
@[simp] theorem raiseHalt_fb (r : HaltReason) (a : Word) (s : State) : (raiseHalt r a s).fb = s.fb := rfl
@[simp] theorem raiseHalt_beeps (r : HaltReason) (a : Word) (s : State) : (raiseHalt r a s).beeps = s.beeps := rfl
@[simp] theorem raiseHalt_trace (r : HaltReason) (a : Word) (s : State) : (raiseHalt r a s).trace = some (.halted r a) := rfl
@[simp] theorem raiseHalt_params (r : HaltReason) (a : Word) (s : State) : (raiseHalt r a s).params = s.params := rfl
@[simp] theorem raiseHalt_inbox (r : HaltReason) (a : Word) (s : State) : (raiseHalt r a s).inbox = s.inbox := rfl
@[simp] theorem raiseHalt_asked (r : HaltReason) (a : Word) (s : State) : (raiseHalt r a s).asked = s.asked := rfl

/-! ### A tick changes the timers and `beeps` only (60_exceptions.md R221) -/

@[simp] theorem tick_v (s : State) : (tick s).v = s.v := rfl
@[simp] theorem tick_i (s : State) : (tick s).i = s.i := rfl
@[simp] theorem tick_pc (s : State) : (tick s).pc = s.pc := rfl
@[simp] theorem tick_sp (s : State) : (tick s).sp = s.sp := rfl
@[simp] theorem tick_stack (s : State) : (tick s).stack = s.stack := rfl
@[simp] theorem tick_dt (s : State) : (tick s).dt = countDown s.dt := rfl
@[simp] theorem tick_st (s : State) : (tick s).st = countDown s.st := rfl
@[simp] theorem tick_mem (s : State) : (tick s).mem = s.mem := rfl
@[simp] theorem tick_status (s : State) : (tick s).status = s.status := rfl
@[simp] theorem tick_cyc (s : State) : (tick s).cyc = s.cyc := rfl
@[simp] theorem tick_fb (s : State) : (tick s).fb = s.fb := rfl
@[simp] theorem tick_beeps (s : State) : (tick s).beeps = if s.st = 1 then s.beeps + 1 else s.beeps := rfl
@[simp] theorem tick_trace (s : State) : (tick s).trace = s.trace := rfl
@[simp] theorem tick_params (s : State) : (tick s).params = s.params := rfl
@[simp] theorem tick_inbox (s : State) : (tick s).inbox = s.inbox := rfl
@[simp] theorem tick_asked (s : State) : (tick s).asked = s.asked := rfl

/-! ### Writing a result and a flag changes `v` only (42_alu.md R153) -/

@[simp] theorem writeWithFlag_v (x : Reg) (b : Byte) (c : Bool) (s : State) : (writeWithFlag x b c s).v = (s.v.set x b).set VF (flagByte c) := rfl
@[simp] theorem writeWithFlag_i (x : Reg) (b : Byte) (c : Bool) (s : State) : (writeWithFlag x b c s).i = s.i := rfl
@[simp] theorem writeWithFlag_pc (x : Reg) (b : Byte) (c : Bool) (s : State) : (writeWithFlag x b c s).pc = s.pc := rfl
@[simp] theorem writeWithFlag_sp (x : Reg) (b : Byte) (c : Bool) (s : State) : (writeWithFlag x b c s).sp = s.sp := rfl
@[simp] theorem writeWithFlag_stack (x : Reg) (b : Byte) (c : Bool) (s : State) : (writeWithFlag x b c s).stack = s.stack := rfl
@[simp] theorem writeWithFlag_dt (x : Reg) (b : Byte) (c : Bool) (s : State) : (writeWithFlag x b c s).dt = s.dt := rfl
@[simp] theorem writeWithFlag_st (x : Reg) (b : Byte) (c : Bool) (s : State) : (writeWithFlag x b c s).st = s.st := rfl
@[simp] theorem writeWithFlag_mem (x : Reg) (b : Byte) (c : Bool) (s : State) : (writeWithFlag x b c s).mem = s.mem := rfl
@[simp] theorem writeWithFlag_status (x : Reg) (b : Byte) (c : Bool) (s : State) : (writeWithFlag x b c s).status = s.status := rfl
@[simp] theorem writeWithFlag_cyc (x : Reg) (b : Byte) (c : Bool) (s : State) : (writeWithFlag x b c s).cyc = s.cyc := rfl
@[simp] theorem writeWithFlag_fb (x : Reg) (b : Byte) (c : Bool) (s : State) : (writeWithFlag x b c s).fb = s.fb := rfl
@[simp] theorem writeWithFlag_beeps (x : Reg) (b : Byte) (c : Bool) (s : State) : (writeWithFlag x b c s).beeps = s.beeps := rfl
@[simp] theorem writeWithFlag_trace (x : Reg) (b : Byte) (c : Bool) (s : State) : (writeWithFlag x b c s).trace = s.trace := rfl
@[simp] theorem writeWithFlag_params (x : Reg) (b : Byte) (c : Bool) (s : State) : (writeWithFlag x b c s).params = s.params := rfl
@[simp] theorem writeWithFlag_inbox (x : Reg) (b : Byte) (c : Bool) (s : State) : (writeWithFlag x b c s).inbox = s.inbox := rfl
@[simp] theorem writeWithFlag_asked (x : Reg) (b : Byte) (c : Bool) (s : State) : (writeWithFlag x b c s).asked = s.asked := rfl

/-! ### Drawing a sprite changes `v` and `fb` only (44_display.md R182) -/

@[simp] theorem drawSprite_i (x y : Reg) (bs : List Byte) (s : State) : (drawSprite x y bs s).i = s.i := rfl
@[simp] theorem drawSprite_pc (x y : Reg) (bs : List Byte) (s : State) : (drawSprite x y bs s).pc = s.pc := rfl
@[simp] theorem drawSprite_sp (x y : Reg) (bs : List Byte) (s : State) : (drawSprite x y bs s).sp = s.sp := rfl
@[simp] theorem drawSprite_stack (x y : Reg) (bs : List Byte) (s : State) : (drawSprite x y bs s).stack = s.stack := rfl
@[simp] theorem drawSprite_dt (x y : Reg) (bs : List Byte) (s : State) : (drawSprite x y bs s).dt = s.dt := rfl
@[simp] theorem drawSprite_st (x y : Reg) (bs : List Byte) (s : State) : (drawSprite x y bs s).st = s.st := rfl
@[simp] theorem drawSprite_mem (x y : Reg) (bs : List Byte) (s : State) : (drawSprite x y bs s).mem = s.mem := rfl
@[simp] theorem drawSprite_status (x y : Reg) (bs : List Byte) (s : State) : (drawSprite x y bs s).status = s.status := rfl
@[simp] theorem drawSprite_cyc (x y : Reg) (bs : List Byte) (s : State) : (drawSprite x y bs s).cyc = s.cyc := rfl
@[simp] theorem drawSprite_beeps (x y : Reg) (bs : List Byte) (s : State) : (drawSprite x y bs s).beeps = s.beeps := rfl
@[simp] theorem drawSprite_trace (x y : Reg) (bs : List Byte) (s : State) : (drawSprite x y bs s).trace = s.trace := rfl
@[simp] theorem drawSprite_params (x y : Reg) (bs : List Byte) (s : State) : (drawSprite x y bs s).params = s.params := rfl
@[simp] theorem drawSprite_inbox (x y : Reg) (bs : List Byte) (s : State) : (drawSprite x y bs s).inbox = s.inbox := rfl
@[simp] theorem drawSprite_asked (x y : Reg) (bs : List Byte) (s : State) : (drawSprite x y bs s).asked = s.asked := rfl

/-! ### The end of a cycle changes `cyc`, the timers and `beeps` only (40_dispatcher_cycle.md R108) -/

@[simp] theorem completeCycle_v (s : State) : (completeCycle s).v = s.v := by
  unfold completeCycle; split <;> [rfl; (dsimp only; split <;> rfl)]
@[simp] theorem completeCycle_i (s : State) : (completeCycle s).i = s.i := by
  unfold completeCycle; split <;> [rfl; (dsimp only; split <;> rfl)]
@[simp] theorem completeCycle_pc (s : State) : (completeCycle s).pc = s.pc := by
  unfold completeCycle; split <;> [rfl; (dsimp only; split <;> rfl)]
@[simp] theorem completeCycle_sp (s : State) : (completeCycle s).sp = s.sp := by
  unfold completeCycle; split <;> [rfl; (dsimp only; split <;> rfl)]
@[simp] theorem completeCycle_stack (s : State) : (completeCycle s).stack = s.stack := by
  unfold completeCycle; split <;> [rfl; (dsimp only; split <;> rfl)]
@[simp] theorem completeCycle_mem (s : State) : (completeCycle s).mem = s.mem := by
  unfold completeCycle; split <;> [rfl; (dsimp only; split <;> rfl)]
@[simp] theorem completeCycle_status (s : State) : (completeCycle s).status = s.status := by
  unfold completeCycle; split <;> [rfl; (dsimp only; split <;> rfl)]
@[simp] theorem completeCycle_fb (s : State) : (completeCycle s).fb = s.fb := by
  unfold completeCycle; split <;> [rfl; (dsimp only; split <;> rfl)]
@[simp] theorem completeCycle_trace (s : State) : (completeCycle s).trace = s.trace := by
  unfold completeCycle; split <;> [rfl; (dsimp only; split <;> rfl)]
@[simp] theorem completeCycle_params (s : State) : (completeCycle s).params = s.params := by
  unfold completeCycle; split <;> [rfl; (dsimp only; split <;> rfl)]
@[simp] theorem completeCycle_inbox (s : State) : (completeCycle s).inbox = s.inbox := by
  unfold completeCycle; split <;> [rfl; (dsimp only; split <;> rfl)]
@[simp] theorem completeCycle_asked (s : State) : (completeCycle s).asked = s.asked := by
  unfold completeCycle; split <;> [rfl; (dsimp only; split <;> rfl)]

/-! ### Report and divider leave all but `trace`, `cyc`, the timers and `beeps` (40_dispatcher_cycle.md R106, R108) -/

@[simp] theorem finishExecuted_v (ia : Word) (i : Instr) (s : State) : (finishExecuted ia i s).v = s.v := by
  simp [finishExecuted]
@[simp] theorem finishExecuted_i (ia : Word) (i : Instr) (s : State) : (finishExecuted ia i s).i = s.i := by
  simp [finishExecuted]
@[simp] theorem finishExecuted_pc (ia : Word) (i : Instr) (s : State) : (finishExecuted ia i s).pc = s.pc := by
  simp [finishExecuted]
@[simp] theorem finishExecuted_sp (ia : Word) (i : Instr) (s : State) : (finishExecuted ia i s).sp = s.sp := by
  simp [finishExecuted]
@[simp] theorem finishExecuted_stack (ia : Word) (i : Instr) (s : State) : (finishExecuted ia i s).stack = s.stack := by
  simp [finishExecuted]
@[simp] theorem finishExecuted_mem (ia : Word) (i : Instr) (s : State) : (finishExecuted ia i s).mem = s.mem := by
  simp [finishExecuted]
@[simp] theorem finishExecuted_status (ia : Word) (i : Instr) (s : State) : (finishExecuted ia i s).status = s.status := by
  simp [finishExecuted]
@[simp] theorem finishExecuted_fb (ia : Word) (i : Instr) (s : State) : (finishExecuted ia i s).fb = s.fb := by
  simp [finishExecuted]
@[simp] theorem finishExecuted_params (ia : Word) (i : Instr) (s : State) : (finishExecuted ia i s).params = s.params := by
  simp [finishExecuted]
@[simp] theorem finishExecuted_inbox (ia : Word) (i : Instr) (s : State) : (finishExecuted ia i s).inbox = s.inbox := by
  simp [finishExecuted]
@[simp] theorem finishExecuted_asked (ia : Word) (i : Instr) (s : State) : (finishExecuted ia i s).asked = s.asked := by
  simp [finishExecuted]
@[simp] theorem finishSkipped_v (ia : Word) (op : Word) (s : State) : (finishSkipped ia op s).v = s.v := by
  simp [finishSkipped]
@[simp] theorem finishSkipped_i (ia : Word) (op : Word) (s : State) : (finishSkipped ia op s).i = s.i := by
  simp [finishSkipped]
@[simp] theorem finishSkipped_pc (ia : Word) (op : Word) (s : State) : (finishSkipped ia op s).pc = s.pc := by
  simp [finishSkipped]
@[simp] theorem finishSkipped_sp (ia : Word) (op : Word) (s : State) : (finishSkipped ia op s).sp = s.sp := by
  simp [finishSkipped]
@[simp] theorem finishSkipped_stack (ia : Word) (op : Word) (s : State) : (finishSkipped ia op s).stack = s.stack := by
  simp [finishSkipped]
@[simp] theorem finishSkipped_mem (ia : Word) (op : Word) (s : State) : (finishSkipped ia op s).mem = s.mem := by
  simp [finishSkipped]
@[simp] theorem finishSkipped_status (ia : Word) (op : Word) (s : State) : (finishSkipped ia op s).status = s.status := by
  simp [finishSkipped]
@[simp] theorem finishSkipped_fb (ia : Word) (op : Word) (s : State) : (finishSkipped ia op s).fb = s.fb := by
  simp [finishSkipped]
@[simp] theorem finishSkipped_params (ia : Word) (op : Word) (s : State) : (finishSkipped ia op s).params = s.params := by
  simp [finishSkipped]
@[simp] theorem finishSkipped_inbox (ia : Word) (op : Word) (s : State) : (finishSkipped ia op s).inbox = s.inbox := by
  simp [finishSkipped]
@[simp] theorem finishSkipped_asked (ia : Word) (op : Word) (s : State) : (finishSkipped ia op s).asked = s.asked := by
  simp [finishSkipped]
@[simp] theorem finishExecuted_trace (ia : Word) (i : Instr) (s : State) :
    (finishExecuted ia i s).trace = some (.executed ia i (flowBreak ia s) s.snapshot) := by simp [finishExecuted]
@[simp] theorem finishSkipped_trace (ia : Word) (op : Word) (s : State) :
    (finishSkipped ia op s).trace = some (.skipped ia op (flowBreak ia s) s.snapshot) := by simp [finishSkipped]

/-! ### Loading registers changes `v` only (43_index_memory.md R165) -/

@[simp] theorem loadRegs_i (s : State) (j : Nat) (bs : List Byte) : (s.loadRegs j bs).i = s.i := by
  induction bs generalizing s j with
  | nil => rfl
  | cons b bs ih => unfold State.loadRegs; split <;> simp [ih]
@[simp] theorem loadRegs_pc (s : State) (j : Nat) (bs : List Byte) : (s.loadRegs j bs).pc = s.pc := by
  induction bs generalizing s j with
  | nil => rfl
  | cons b bs ih => unfold State.loadRegs; split <;> simp [ih]
@[simp] theorem loadRegs_sp (s : State) (j : Nat) (bs : List Byte) : (s.loadRegs j bs).sp = s.sp := by
  induction bs generalizing s j with
  | nil => rfl
  | cons b bs ih => unfold State.loadRegs; split <;> simp [ih]
@[simp] theorem loadRegs_stack (s : State) (j : Nat) (bs : List Byte) : (s.loadRegs j bs).stack = s.stack := by
  induction bs generalizing s j with
  | nil => rfl
  | cons b bs ih => unfold State.loadRegs; split <;> simp [ih]
@[simp] theorem loadRegs_dt (s : State) (j : Nat) (bs : List Byte) : (s.loadRegs j bs).dt = s.dt := by
  induction bs generalizing s j with
  | nil => rfl
  | cons b bs ih => unfold State.loadRegs; split <;> simp [ih]
@[simp] theorem loadRegs_st (s : State) (j : Nat) (bs : List Byte) : (s.loadRegs j bs).st = s.st := by
  induction bs generalizing s j with
  | nil => rfl
  | cons b bs ih => unfold State.loadRegs; split <;> simp [ih]
@[simp] theorem loadRegs_mem (s : State) (j : Nat) (bs : List Byte) : (s.loadRegs j bs).mem = s.mem := by
  induction bs generalizing s j with
  | nil => rfl
  | cons b bs ih => unfold State.loadRegs; split <;> simp [ih]
@[simp] theorem loadRegs_status (s : State) (j : Nat) (bs : List Byte) : (s.loadRegs j bs).status = s.status := by
  induction bs generalizing s j with
  | nil => rfl
  | cons b bs ih => unfold State.loadRegs; split <;> simp [ih]
@[simp] theorem loadRegs_cyc (s : State) (j : Nat) (bs : List Byte) : (s.loadRegs j bs).cyc = s.cyc := by
  induction bs generalizing s j with
  | nil => rfl
  | cons b bs ih => unfold State.loadRegs; split <;> simp [ih]
@[simp] theorem loadRegs_fb (s : State) (j : Nat) (bs : List Byte) : (s.loadRegs j bs).fb = s.fb := by
  induction bs generalizing s j with
  | nil => rfl
  | cons b bs ih => unfold State.loadRegs; split <;> simp [ih]
@[simp] theorem loadRegs_beeps (s : State) (j : Nat) (bs : List Byte) : (s.loadRegs j bs).beeps = s.beeps := by
  induction bs generalizing s j with
  | nil => rfl
  | cons b bs ih => unfold State.loadRegs; split <;> simp [ih]
@[simp] theorem loadRegs_trace (s : State) (j : Nat) (bs : List Byte) : (s.loadRegs j bs).trace = s.trace := by
  induction bs generalizing s j with
  | nil => rfl
  | cons b bs ih => unfold State.loadRegs; split <;> simp [ih]
@[simp] theorem loadRegs_params (s : State) (j : Nat) (bs : List Byte) : (s.loadRegs j bs).params = s.params := by
  induction bs generalizing s j with
  | nil => rfl
  | cons b bs ih => unfold State.loadRegs; split <;> simp [ih]
@[simp] theorem loadRegs_inbox (s : State) (j : Nat) (bs : List Byte) : (s.loadRegs j bs).inbox = s.inbox := by
  induction bs generalizing s j with
  | nil => rfl
  | cons b bs ih => unfold State.loadRegs; split <;> simp [ih]
@[simp] theorem loadRegs_asked (s : State) (j : Nat) (bs : List Byte) : (s.loadRegs j bs).asked = s.asked := by
  induction bs generalizing s j with
  | nil => rfl
  | cons b bs ih => unfold State.loadRegs; split <;> simp [ih]

/-! ### Reading a register after a write -/

@[simp] theorem getV_setV_same (s : State) (r : Reg) (b : Byte) : (s.setV r b).getV r = b := by
  simp [State.getV, State.setV]

theorem getV_setV_other (s : State) (r q : Reg) (b : Byte) (h : q ≠ r) : (s.setV r b).getV q = s.getV q := by
  simp [State.getV, State.setV, Fin.val_ne_of_ne h.symm]

theorem getV_setV (s : State) (r q : Reg) (b : Byte) : (s.setV r b).getV q = if q = r then b else s.getV q := by
  split
  · subst q; exact getV_setV_same s r b
  · exact getV_setV_other s r q b ‹_›

/-- Two states with the same `v` hold the same registers. -/
theorem getV_congr {s t : State} (h : t.v = s.v) (r : Reg) : t.getV r = s.getV r := by
  simp [State.getV, h]

/-- After a result and a flag are written, VF holds the flag, whatever `X` is (42_alu.md R153). -/
@[simp] theorem getV_writeWithFlag_VF (x : Reg) (b : Byte) (c : Bool) (s : State) :
    (writeWithFlag x b c s).getV VF = flagByte c := by
  simp [writeWithFlag]

/-- A destination other than VF holds the result. -/
theorem getV_writeWithFlag_dest (x : Reg) (b : Byte) (c : Bool) (s : State) (h : x ≠ VF) :
    (writeWithFlag x b c s).getV x = b := by
  simp [writeWithFlag, getV_setV_other _ _ _ _ h]

/-- Every other register is as before. -/
theorem getV_writeWithFlag_other (x q : Reg) (b : Byte) (c : Bool) (s : State) (h : q ≠ x) (hf : q ≠ VF) :
    (writeWithFlag x b c s).getV q = s.getV q := by
  simp [writeWithFlag, getV_setV_other _ _ _ _ h, getV_setV_other _ _ _ _ hf]

/-- `for j: V[first + j] <- bytes[j]` (43_index_memory.md R165): what each register holds after it. -/
theorem getV_loadRegs (s : State) (j : Nat) (bs : List Byte) (q : Reg) :
    (s.loadRegs j bs).getV q =
      if h : j ≤ q.val ∧ q.val - j < bs.length then bs[q.val - j]'h.2 else s.getV q := by
  induction bs generalizing s j with
  | nil => simp [State.loadRegs]
  | cons b bs ih =>
    unfold State.loadRegs
    split
    · rename_i hj
      rw [ih]
      by_cases hq : q.val = j
      · have : q = ⟨j, hj⟩ := Fin.ext hq
        subst this; simp
      · rw [getV_setV_other _ _ _ _ (fun e => hq (by rw [e]))]
        by_cases hle : j ≤ q.val
        · have e : q.val - j = (q.val - (j + 1)) + 1 := by omega
          by_cases hlt : q.val - (j + 1) < bs.length
          · rw [dif_pos ⟨by omega, hlt⟩, dif_pos ⟨hle, by simp; omega⟩]; simp [e]
          · rw [dif_neg (by omega), dif_neg (by simp; omega)]
        · rw [dif_neg (by omega), dif_neg (by omega)]
    · have := q.isLt
      rw [dif_neg (by omega)]

end Sys2Proof.Machine
end

