-- ==== Sys2Proof/Laws/Ops.lean ====
section
/-! SUPPORT. For each shared operation, once, everything it can do; callers cite these and unfold no operation. -/

namespace Sys2Proof.Machine

/-! ## Halting or going on -/

@[simp] theorem orHalt_some (r : HaltReason) (s t : State) : orHalt r s (some t) = .next t := rfl

@[simp] theorem orHalt_none (r : HaltReason) (s : State) : orHalt r s none = .next (raiseHalt r s.ia s) := rfl

/-- An operation that may give nothing ends in its state or in the halt; never in a fault or a refusal. -/
theorem orHalt_cases (r : HaltReason) (s : State) (o : Option State) :
    (∃ t, o = some t ∧ orHalt r s o = .next t) ∨ (o = none ∧ orHalt r s o = .next (raiseHalt r s.ia s)) := by
  cases o with
  | some t => exact .inl ⟨t, rfl, rfl⟩
  | none => exact .inr ⟨rfl, rfl⟩

/-! ## Reset -/

theorem romFits_iff (rom : List Byte) : romFits rom = true ↔ rom.length ≤ 3584 := by
  have e : Config.romMax = 3584 := rfl
  unfold romFits
  rw [decide_eq_true_iff, e]

/-- A reset with an image that fits (70_reset_and_hazards.md R250). -/
theorem applyReset_fits {rom : List Byte} (h : rom.length ≤ 3584) (s : State) :
    applyReset rom s = .next { State.reset with
      mem := Memory.loadRom rom, params := s.params, inbox := s.inbox, asked := s.asked } := by
  rw [applyReset, if_pos ((romFits_iff rom).mpr h)]

/-- A reset with an image that does not fit (70_reset_and_hazards.md R252). -/
theorem applyReset_tooLong {rom : List Byte} (h : 3584 < rom.length) (s : State) :
    applyReset rom s = .refused (.romTooLong rom.length) := by
  rw [applyReset, if_neg (fun e => absurd ((romFits_iff rom).mp e) (Nat.not_le.mpr h))]

/-! ## Memory -/

theorem inMemory_iff (a n : Nat) : inMemory a n = true ↔ a + n ≤ Config.memSize := by simp [inMemory]

/-- A read inside memory gives the bytes (20_memory.md R58). -/
theorem memRead_inside {s : State} {a n : Nat} (h : a + n ≤ Config.memSize) :
    memRead s a n = some (Memory.readBytes s.mem a n) := by simp [memRead, inMemory_iff, h]

/-- A read past memory gives nothing (20_memory.md R57, R58). -/
theorem memRead_outside {s : State} {a n : Nat} (h : Config.memSize < a + n) : memRead s a n = none := by
  simp [memRead, inMemory_iff, Nat.not_le.mpr h]

/-- A write inside memory changes `mem` only (20_memory.md R58). -/
theorem memWrite_inside {s : State} {a : Nat} {bs : List Byte} (h : a + bs.length ≤ Config.memSize) :
    memWrite s a bs = some { s with mem := Memory.writeBytes s.mem a bs } := by simp [memWrite, inMemory_iff, h]

/-- A write past memory gives nothing (20_memory.md R57, R58). -/
theorem memWrite_outside {s : State} {a : Nat} {bs : List Byte} (h : Config.memSize < a + bs.length) :
    memWrite s a bs = none := by simp [memWrite, inMemory_iff, Nat.not_le.mpr h]

/-- Everything a memory write can do. -/
theorem memWrite_eq_some {s t : State} {a : Nat} {bs : List Byte} :
    memWrite s a bs = some t ↔
      a + bs.length ≤ Config.memSize ∧ t = { s with mem := Memory.writeBytes s.mem a bs } := by
  by_cases h : a + bs.length ≤ Config.memSize
  · simp [memWrite_inside h, h, eq_comm]
  · simp [memWrite_outside (Nat.not_le.mp h), h]

/-- Everything a memory read can do. -/
theorem memRead_eq_some {s : State} {a n : Nat} {bs : List Byte} :
    memRead s a n = some bs ↔ a + n ≤ Config.memSize ∧ bs = Memory.readBytes s.mem a n := by
  by_cases h : a + n ≤ Config.memSize
  · simp [memRead_inside h, h, eq_comm]
  · simp [memRead_outside (Nat.not_le.mp h), h]

/-! ## The call stack -/

/-- Everything a push can do (10_state.md R25). -/
theorem push_eq_some {w : Word} {s t : State} :
    push w s = some t ↔ ∃ h : s.sp.val < 16,
      t = { s with stack := s.stack.set s.sp.val w, sp := ⟨s.sp.val + 1, by omega⟩ } := by
  unfold push
  by_cases h : s.sp.val < 16
  · simp [h, eq_comm]
  · simp [h]

theorem push_full {w : Word} {s : State} (h : s.sp.val = 16) : push w s = none := by
  unfold push
  rw [dif_neg (by omega)]

/-- Everything a pop can do (10_state.md R25). -/
theorem pop_eq_some {s t : State} {w : Word} :
    pop s = some (w, t) ↔ ∃ h : 0 < s.sp.val,
      w = s.stack[s.sp.val - 1] ∧ t = { s with sp := ⟨s.sp.val - 1, by omega⟩ } := by
  unfold pop
  by_cases h : 0 < s.sp.val
  · simp [h, eq_comm]
  · simp [h]

theorem pop_empty {s : State} (h : s.sp.val = 0) : pop s = none := by
  unfold pop
  rw [dif_neg (by omega)]

/-! ## Blocks of registers -/

@[simp] theorem length_regsUpTo (s : State) (x : Reg) : (s.regsUpTo x).length = x.val + 1 := by
  have := x.isLt
  simp only [State.regsUpTo, List.length_take, Vector.length_toList]
  omega

/-- Byte `j` of a stored block is `V[j]` (43_index_memory.md R164). -/
theorem getElem_regsUpTo (s : State) (x : Reg) (j : Nat) (h : j < (s.regsUpTo x).length) :
    (s.regsUpTo x)[j] = s.getV ⟨j, by rw [length_regsUpTo] at h; omega⟩ := by
  simp [State.regsUpTo, State.getV]

@[simp] theorem length_decimalDigits (b : Byte) : (decimalDigits b).length = 3 := rfl

/-! ## Timers and the divider -/

theorem toNat_countDown (t : Byte) : (countDown t).toNat = t.toNat - 1 := by
  unfold countDown
  split
  · subst t; rfl
  · rename_i h
    have : t.toNat ≠ 0 := fun e => h (BitVec.eq_of_toNat_eq (by simpa using e))
    have := t.isLt
    rw [BitVec.toNat_sub]
    simp
    omega

/-- In `EXTERNAL` mode the end of a cycle does nothing (40_dispatcher_cycle.md R108). -/
theorem completeCycle_external {s : State} (h : s.params.timerMode = .external) : completeCycle s = s := by
  simp [completeCycle, h]

/-- In `DIVIDED` mode the divider counts modulo 5, and ticks when it comes to 0 (40_dispatcher_cycle.md R108). -/
theorem completeCycle_divided {s : State} (h : s.params.timerMode = .divided) :
    completeCycle s = if s.cyc.val = 4 then tick { s with cyc := 0 } else { s with cyc := s.cyc + 1 } := by
  have key : (s.cyc + 1 = 0) ↔ s.cyc.val = 4 := by
    generalize s.cyc = c
    revert c
    decide
  simp only [completeCycle, h]
  by_cases h4 : s.cyc.val = 4
  · rw [if_pos (key.mpr h4), if_pos h4, key.mpr h4]
  · rw [if_neg (fun e => h4 (key.mp e)), if_neg h4]

/-- What the end of a cycle does to the divider, the timers and the pulses in `DIVIDED` mode
(40_dispatcher_cycle.md R108, 60_exceptions.md R221, R222). -/
theorem completeCycle_divided_fields {s : State} (h : s.params.timerMode = .divided) :
    (completeCycle s).cyc.val = (s.cyc.val + 1) % 5 ∧
    (completeCycle s).dt.toNat = s.dt.toNat - (if s.cyc.val = 4 then 1 else 0) ∧
    (completeCycle s).st.toNat = s.st.toNat - (if s.cyc.val = 4 then 1 else 0) ∧
    (completeCycle s).beeps = s.beeps + (if s.cyc.val = 4 ∧ s.st.toNat = 1 then 1 else 0) := by
  have one : (s.st = 1) ↔ s.st.toNat = 1 := ⟨fun h => by rw [h]; rfl, fun h => BitVec.eq_of_toNat_eq h⟩
  rw [completeCycle_divided h]
  by_cases h4 : s.cyc.val = 4
  · simp only [h4, if_pos, tick_cyc, tick_dt, tick_st, tick_beeps, toNat_countDown, one]
    refine ⟨rfl, trivial, trivial, ?_⟩
    split <;> simp_all
  · simp [h4, Fin.val_add]

/-- The end of a cycle changes `cyc`, the timers and `beeps` only, and leaves the registers. -/
@[simp] theorem getV_completeCycle (s : State) (r : Reg) : (completeCycle s).getV r = s.getV r :=
  getV_congr (completeCycle_v s) r

/-! ## Drawing -/

/-- Drawing keeps the canonical form of `FB`. -/
theorem fbWf_drawPixels {mode : Config.DisplayNorm} {ps : List Pixel} {acc : List Pixel × Bool} (h : fbWf acc.1) :
    fbWf (drawPixels mode ps acc).1 := by
  induction ps generalizing acc with
  | nil => exact h
  | cons p ps ih => exact ih (fbWf_toggle h mode p)

/-- The columns of a row are those of its set bits, bit 7 at column 0 (44_display.md R182). -/
theorem mem_litColumns {b : Byte} {c : Nat} : c ∈ litColumns b ↔ c < 8 ∧ b.getLsbD (7 - c) = true := by
  simp [litColumns]

/-- The pixels of a sprite: row `r`, column `c` for each set bit (44_display.md R182). -/
theorem mem_litPixels {x0 y0 : Nat} {bs : List Byte} {p : Pixel} :
    p ∈ litPixels x0 y0 bs ↔
      ∃ r c, ∃ h : r < bs.length, c < 8 ∧ bs[r].getLsbD (7 - c) = true ∧ p = { x := x0 + c, y := y0 + r } := by
  induction bs generalizing y0 with
  | nil => simp [litPixels]
  | cons b bs ih =>
    simp only [litPixels, List.mem_append, List.mem_map, mem_litColumns, ih]
    constructor
    · rintro (⟨c, ⟨hc, hb⟩, rfl⟩ | ⟨r, c, hr, hc, hb, rfl⟩)
      · exact ⟨0, c, by simp, hc, hb, rfl⟩
      · exact ⟨r + 1, c, by simpa using hr, hc, by simpa using hb, by simp; omega⟩
    · rintro ⟨r, c, hr, hc, hb, rfl⟩
      cases r with
      | zero => exact .inl ⟨c, ⟨hc, hb⟩, rfl⟩
      | succ r => exact .inr ⟨r, c, by simpa using hr, hc, by simpa using hb, by simp; omega⟩

end Sys2Proof.Machine
end

