-- ==== Sys2Proof/Laws/Drawing.lean ====
section
/-! SUPPORT. What drawing a run of pixels does to the display, said once (44_display.md R182), and that the pixels of one
sprite are distinct for the display under every `DISPLAY_NORM` (R184). -/

namespace Sys2Proof.Machine

/-- The display takes no two of the pixels as the same one. -/
def NormDistinct (mode : Config.DisplayNorm) (ps : List Pixel) : Prop :=
  ps.Pairwise (fun p q => ∀ r, ¬ (normPixel mode p = some r ∧ normPixel mode q = some r))

/-- Drawing distinct pixels toggles each of them once and no other pixel. -/
theorem mem_drawPixels {mode : Config.DisplayNorm} {ps : List Pixel} {acc : List Pixel × Bool} {q : Pixel}
    (h : NormDistinct mode ps) :
    q ∈ (drawPixels mode ps acc).1 ↔ ((∃ p ∈ ps, normPixel mode p = some q) ↔ q ∉ acc.1) := by
  induction ps generalizing acc with
  | nil => simp [drawPixels]
  | cons p ps ih =>
    obtain ⟨hp, hps⟩ := List.pairwise_cons.mp h
    have apart : normPixel mode p = some q → ¬ ∃ p' ∈ ps, normPixel mode p' = some q :=
      fun e ⟨p', hp', e'⟩ => hp p' hp' q ⟨e, e'⟩
    simp only [drawPixels]
    rw [ih hps, mem_fbToggle]
    by_cases e : normPixel mode p = some q
    · simp [e, apart e]
    · simp [e]

/-- Drawing distinct pixels reports a collision exactly if one of them was on before. -/
theorem hit_drawPixels {mode : Config.DisplayNorm} {ps : List Pixel} {acc : List Pixel × Bool}
    (h : NormDistinct mode ps) :
    (drawPixels mode ps acc).2 = true ↔ acc.2 = true ∨ ∃ p ∈ ps, ∃ q, normPixel mode p = some q ∧ q ∈ acc.1 := by
  induction ps generalizing acc with
  | nil => simp [drawPixels]
  | cons p ps ih =>
    obtain ⟨hp, hps⟩ := List.pairwise_cons.mp h
    have rest : (∃ p' ∈ ps, ∃ q, normPixel mode p' = some q ∧ q ∈ fbToggle mode acc.1 p) ↔
        ∃ p' ∈ ps, ∃ q, normPixel mode p' = some q ∧ q ∈ acc.1 := by
      constructor <;> rintro ⟨p', hp', q, e, hq⟩ <;> refine ⟨p', hp', q, e, ?_⟩
      · rwa [mem_fbToggle, if_neg (fun e' => hp p' hp' q ⟨e', e⟩)] at hq
      · rwa [mem_fbToggle, if_neg (fun e' => hp p' hp' q ⟨e', e⟩)]
    have first : fbGet mode acc.1 p = true ↔ ∃ q, normPixel mode p = some q ∧ q ∈ acc.1 := by
      unfold fbGet
      cases normPixel mode p <;> simp
    simp only [drawPixels]
    rw [ih hps]
    simp only [rest, Bool.or_eq_true, first, List.mem_cons, exists_eq_or_imp, or_assoc]

/-- Two pixels that agree for the display agree modulo the grid. -/
theorem normPixel_mod {mode : Config.DisplayNorm} {p q r : Pixel} (hp : normPixel mode p = some r)
    (hq : normPixel mode q = some r) : p.x % 64 = q.x % 64 ∧ p.y % 32 = q.y % 32 := by
  cases mode with
  | store => simp only [normPixel, Option.some.injEq] at hp hq; rw [hp, hq]; exact ⟨rfl, rfl⟩
  | wrap =>
    simp only [normPixel, Option.some.injEq] at hp hq
    have e := hp.trans hq.symm
    simpa only [Pixel.mk.injEq] using e
  | clip =>
    simp only [normPixel] at hp hq
    split at hp <;> split at hq <;> simp_all

/-- The pixels of a sprite of at most 16 rows are distinct for the display. -/
theorem normDistinct_litPixels (mode : Config.DisplayNorm) (x0 y0 : Nat) (bs : List Byte) (h : bs.length ≤ 16) :
    NormDistinct mode (litPixels x0 y0 bs) := by
  have columns : ∀ b : Byte, (litColumns b).Pairwise (fun c d => c < d) := fun b =>
    List.Pairwise.filter _ (List.pairwise_lt_range)
  suffices ∀ (bs : List Byte) (y0 : Nat), bs.length ≤ 16 → NormDistinct mode (litPixels x0 y0 bs) from this bs y0 h
  intro bs
  induction bs with
  | nil => intro _ _; exact List.Pairwise.nil
  | cons b bs ih =>
    intro y0 h
    simp only [List.length_cons] at h
    refine List.pairwise_append.mpr ⟨?_, ih (y0 + 1) (by omega), ?_⟩
    · rw [List.pairwise_map]
      refine (columns b).imp_of_mem ?_
      rintro c d hc hd hlt r ⟨e1, e2⟩
      have := (normPixel_mod e1 e2).1
      have := (mem_litColumns.mp hc).1
      have := (mem_litColumns.mp hd).1
      simp only at *
      omega
    · intro p hp q hq r ⟨e1, e2⟩
      obtain ⟨c, _, rfl⟩ := List.mem_map.mp hp
      obtain ⟨r', c', hr, _, _, rfl⟩ := mem_litPixels.mp hq
      have := (normPixel_mod e1 e2).2
      simp only at *
      omega

end Sys2Proof.Machine
end

