-- ==== Sys2Proof/Laws/Step.lean ====
section
/-! SUPPORT. What a step does with its event, and running several steps (40_dispatcher_cycle.md R100 to R109). -/

namespace Sys2Proof.Machine

/-- One more step of a run, after a first step that goes on. -/
theorem run_succ_of_next (M : Host.Core) (n : Nat) {s t : M.State} (h : M.step s = .next t) :
    M.run (n + 1) s = M.run n t := by simp [Host.Core.run, h]

/-- One more step of this machine's run. -/
theorem core_run_succ (n : Nat) {s t : State} (h : step s = .next t) :
    Sys2Proof.core.run (n + 1) s = Sys2Proof.core.run n t :=
  run_succ_of_next Sys2Proof.core n h

theorem core_run_zero (s : State) : Sys2Proof.core.run 0 s = .next s := rfl

/-! ## The event of a step -/

/-- A step with a pending event is that event, taken. -/
theorem step_of_head {s : State} {e : HostEvent} (h : s.inbox.head? = some e) :
    step s = hostEvent e s.eventTaken := by
  obtain ⟨e', rest, hs⟩ : ∃ e' rest, s.inbox = e' :: rest := by
    cases hi : s.inbox with
    | nil => simp [hi] at h
    | cons a l => exact ⟨a, l, rfl⟩
  have : e' = e := by simpa [hs] using h
  subst this
  simp [step, nextEvent, State.eventTaken, hs]

theorem eventTaken_of_nil {s : State} (h : s.inbox = []) : s.eventTaken = s := by
  unfold State.eventTaken
  rw [h, List.tail_nil, ← h]

/-- A step whose event is `Cycle`, delivered or by default, is the Cycle event (log entry 1). -/
theorem step_of_cycle {s : State} (h : CycleIsNext s) : step s = cycleEvent s.eventTaken := by
  rcases h with h | h
  · simp [step, nextEvent, hostEvent, h, eventTaken_of_nil h]
  · simp [step_of_head h, hostEvent]

/-- Every step is a Cycle event or a pending event, taken. -/
theorem step_cases (s : State) :
    (s.inbox = [] ∧ step s = cycleEvent s) ∨
    ∃ e rest, s.inbox = e :: rest ∧ step s = hostEvent e s.eventTaken := by
  cases h : s.inbox with
  | nil => exact .inl ⟨rfl, by rw [step_of_cycle (.inl h), eventTaken_of_nil h]⟩
  | cons e rest => exact .inr ⟨e, rest, rfl, step_of_head (by simp [h])⟩

@[simp] theorem eventTaken_status (s : State) : s.eventTaken.status = s.status := rfl
@[simp] theorem eventTaken_params (s : State) : s.eventTaken.params = s.params := rfl
@[simp] theorem eventTaken_inbox (s : State) : s.eventTaken.inbox = s.inbox.tail := rfl
@[simp] theorem eventTaken_pc (s : State) : s.eventTaken.pc = s.pc := rfl
@[simp] theorem eventTaken_mem (s : State) : s.eventTaken.mem = s.mem := rfl

/-! ## The Cycle event -/

/-- A fetch inside memory reads the two bytes at `PC`, the first as the high half (20_memory.md R54). -/
theorem fetch_inside {s : State} (h : s.pc.toNat + 1 < Config.memSize) :
    fetch s = some (opcodeOfBytes (s.readByte s.pc.toNat) (s.readByte (s.pc.toNat + 1))) := by
  rw [fetch, if_pos h]

/-- A fetch past memory gives nothing (40_dispatcher_cycle.md R102). -/
theorem fetch_outside {s : State} (h : Config.memSize ≤ s.pc.toNat + 1) : fetch s = none := by
  rw [fetch, if_neg (Nat.not_lt.mpr h)]

theorem cycleEvent_running {s : State} (h : s.status = .running) : cycleEvent s = runCycle s := by
  rw [cycleEvent, h]

theorem cycleEvent_idle {s : State} (h : s.status ≠ .running) : cycleEvent s = .next s := by
  unfold cycleEvent
  cases hs : s.status with
  | running => exact absurd hs h
  | waiting x => rfl
  | halted r a => rfl

theorem tickEvent_idle {s : State} (h : s.status ≠ .running) : tickEvent s = s := by
  unfold tickEvent
  cases hm : s.params.timerMode <;> cases hs : s.status <;> first | rfl | exact absurd hs h

/-- A handler that completes is followed by report and divider (40_dispatcher_cycle.md R105, R106, R108). -/
theorem afterHandler_running {ia : Word} {i : Instr} {t : State} (h : t.status = .running) :
    afterHandler ia i (.next t) = .next (finishExecuted ia i t) := by
  simp only [afterHandler, h]

/-- A handler that halts or suspends ends the cycle (40_dispatcher_cycle.md R105). -/
theorem afterHandler_idle {ia : Word} {i : Instr} {t : State} (h : t.status ≠ .running) :
    afterHandler ia i (.next t) = .next t := by
  unfold afterHandler
  cases hs : t.status with
  | running => exact absurd hs h
  | waiting x => simp only [hs]
  | halted r a => simp only [hs]

end Sys2Proof.Machine
end

