-- ==== Sys2Proof/Laws/Exec.lean ====
section
/-! SUPPORT. What a handler and a running cycle can do, said once: every handler answers a next state, none touches
what no instruction writes, and the ways a cycle ends (40_dispatcher_cycle.md R102 to R108). -/

namespace Sys2Proof.Machine

/-- Everything an operation that may halt can answer. -/
theorem orHalt_eq_next {r : HaltReason} {s t : State} {o : Option State} (h : orHalt r s o = .next t) :
    o = some t ∨ (o = none ∧ t = raiseHalt r s.ia s) := by
  rcases orHalt_cases r s o with ⟨u, h1, h2⟩ | ⟨h1, h2⟩ <;> rw [h2] at h <;> cases h
  · exact .inl h1
  · exact .inr ⟨h1, rfl⟩

/-- Everything a call can do (41_control_flow.md R121). -/
theorem execJsr_eq_next {nnn : BitVec 12} {s t : State} (h : exec (.jsr nnn) s = .next t) :
    (∃ hsp : s.sp.val < 16, t = { s with
      stack := s.stack.set s.sp.val s.pc, sp := ⟨s.sp.val + 1, by omega⟩, pc := zextNNN nnn }) ∨
    (s.sp.val = 16 ∧ t = raiseHalt .stackOverflow s.ia s) := by
  by_cases hsp : s.sp.val < 16
  · have e : exec (.jsr nnn) s = .next { s with
        stack := s.stack.set s.sp.val s.pc, sp := ⟨s.sp.val + 1, by omega⟩, pc := zextNNN nnn } := by
      show orHalt _ _ _ = _
      rw [push_eq_some.mpr ⟨hsp, rfl⟩]; rfl
    rw [e] at h
    cases h
    exact .inl ⟨hsp, rfl⟩
  · have full : s.sp.val = 16 := by have := s.sp.isLt; omega
    have e : exec (.jsr nnn) s = .next (raiseHalt .stackOverflow s.ia s) := by
      show orHalt _ _ _ = _
      rw [push_full full]; rfl
    rw [e] at h
    cases h
    exact .inr ⟨full, rfl⟩

/-- Everything a return can do (41_control_flow.md R122). -/
theorem execRts_eq_next {s t : State} (h : exec .rts s = .next t) :
    (∃ hsp : 0 < s.sp.val, t = { s with sp := ⟨s.sp.val - 1, by omega⟩, pc := s.stack[s.sp.val - 1] }) ∨
    (s.sp.val = 0 ∧ t = raiseHalt .stackUnderflow s.ia s) := by
  by_cases hsp : 0 < s.sp.val
  · have e : exec .rts s = .next { s with sp := ⟨s.sp.val - 1, by omega⟩, pc := s.stack[s.sp.val - 1] } := by
      show orHalt _ _ _ = _
      rw [pop_eq_some.mpr ⟨hsp, rfl, rfl⟩]; rfl
    rw [e] at h
    cases h
    exact .inl ⟨hsp, rfl⟩
  · have e : exec .rts s = .next (raiseHalt .stackUnderflow s.ia s) := by
      show orHalt _ _ _ = _
      rw [pop_empty (by omega)]; rfl
    rw [e] at h
    cases h
    exact .inr ⟨by omega, rfl⟩

/-- Everything an instruction that stores can do (43_index_memory.md R163, R164). -/
theorem store_eq_next {s t : State} {bs : List Byte}
    (h : orHalt .dataRange s (memWrite s s.indexAddr bs) = .next t) :
    (s.i.toNat + bs.length ≤ 4096 ∧ t = { s with mem := Memory.writeBytes s.mem s.i.toNat bs }) ∨
    (4096 < s.i.toNat + bs.length ∧ t = raiseHalt .dataRange s.ia s) := by
  by_cases hl : s.i.toNat + bs.length ≤ 4096
  · rw [memWrite_inside (a := s.indexAddr) hl] at h
    cases h
    exact .inl ⟨hl, rfl⟩
  · rw [memWrite_outside (a := s.indexAddr) (Nat.not_le.mp hl)] at h
    cases h
    exact .inr ⟨Nat.not_le.mp hl, rfl⟩

/-- Everything an instruction that reads `n` bytes through `I` can do (43_index_memory.md R165, 44_display.md R182). -/
theorem load_eq_next {s t : State} {n : Nat} {f : List Byte → State}
    (h : orHalt .dataRange s ((memRead s s.indexAddr n).map f) = .next t) :
    (s.i.toNat + n ≤ 4096 ∧ t = f (Memory.readBytes s.mem s.i.toNat n)) ∨
    (4096 < s.i.toNat + n ∧ t = raiseHalt .dataRange s.ia s) := by
  by_cases hl : s.i.toNat + n ≤ 4096
  · rw [memRead_inside (a := s.indexAddr) hl] at h
    cases h
    exact .inl ⟨hl, rfl⟩
  · rw [memRead_outside (a := s.indexAddr) (Nat.not_le.mp hl)] at h
    cases h
    exact .inr ⟨Nat.not_le.mp hl, rfl⟩

/-- Every handler answers a next state: a halt is one too (log entry 5). -/
theorem exec_answers (i : Instr) (s : State) : ∃ t, exec i s = .next t := by
  have orHalt_answers : ∀ r o, ∃ t, orHalt r s o = .next t := fun r o => by cases o <;> exact ⟨_, rfl⟩
  cases i <;> first | exact ⟨_, rfl⟩ | exact orHalt_answers _ _

/-- No handler changes the parameters, the events still to come or the divider. -/
theorem exec_untouched {i : Instr} {s t : State} (h : exec i s = .next t) :
    t.params = s.params ∧ t.inbox = s.inbox ∧ t.cyc = s.cyc := by
  cases i
  case jsr nnn => rcases execJsr_eq_next h with ⟨_, rfl⟩ | ⟨_, rfl⟩ <;> exact ⟨rfl, rfl, rfl⟩
  case rts => rcases execRts_eq_next h with ⟨_, rfl⟩ | ⟨_, rfl⟩ <;> exact ⟨rfl, rfl, rfl⟩
  case bcd x => rcases store_eq_next h with ⟨_, rfl⟩ | ⟨_, rfl⟩ <;> exact ⟨rfl, rfl, rfl⟩
  case str x => rcases store_eq_next h with ⟨_, rfl⟩ | ⟨_, rfl⟩ <;> exact ⟨rfl, rfl, rfl⟩
  case ldr x => rcases load_eq_next h with ⟨_, rfl⟩ | ⟨_, rfl⟩ <;> simp
  case sprite x y n => rcases load_eq_next h with ⟨_, rfl⟩ | ⟨_, rfl⟩ <;> simp
  all_goals (cases h; exact ⟨rfl, rfl, rfl⟩)

/-- The ways a running cycle ends: a fetch past memory, an opcode that is invalid or skipped, or the handler of the
decoded instruction, followed by report and divider if it completes. -/
theorem runCycle_eq_next {s t : State} (h : runCycle s = .next t) :
    t = raiseHalt .fetchRange s.pc s ∨
    ∃ op, fetch s = some op ∧
      (t = raiseHalt .decodeFailure s.pc s.advancePc ∨ t = finishSkipped s.pc op s.advancePc ∨
       ∃ i u, decodeWord op = .ok i ∧ exec i s.advancePc = .next u ∧
         ((u.status = .running ∧ t = finishExecuted s.pc i u) ∨ (u.status ≠ .running ∧ t = u))) := by
  unfold runCycle at h
  cases hf : fetch s with
  | none => rw [hf] at h; cases h; exact .inl rfl
  | some op =>
    rw [hf] at h
    refine .inr ⟨op, rfl, ?_⟩
    simp only [runOpcode] at h
    cases hd : decodeWord op with
    | error e =>
      simp only [hd] at h
      split at h <;> cases h
      · exact .inr (.inl rfl)
      · exact .inl rfl
    | ok i =>
      obtain ⟨u, hu⟩ := exec_answers i s.advancePc
      simp only [hd, hu] at h
      refine .inr (.inr ⟨i, u, rfl, hu, ?_⟩)
      by_cases hr : u.status = .running
      · rw [afterHandler_running hr] at h; cases h; exact .inl ⟨hr, rfl⟩
      · rw [afterHandler_idle hr] at h; cases h; exact .inr ⟨hr, rfl⟩

/-- A fetch that gives an opcode read it inside memory (20_memory.md R54, R57). -/
theorem fetch_eq_some {s : State} {op : Word} (h : fetch s = some op) :
    s.pc.toNat + 1 < 4096 ∧ op = opcodeOfBytes (s.readByte s.pc.toNat) (s.readByte (s.pc.toNat + 1)) := by
  by_cases hc : s.pc.toNat + 1 < Config.memSize
  · rw [fetch_inside hc] at h; cases h; exact ⟨hc, rfl⟩
  · rw [fetch_outside (Nat.not_lt.mp hc)] at h; cases h

end Sys2Proof.Machine
end

