-- ==== Sys2Proof/Laws/PerInstr.lean ====
section
/-! SUPPORT. Facts about an instruction as syntax, one lemma per constructor. The family EncodedKey: under the mask of
30_encoding.md R72 the encoding of an instruction has the key the opcode table of R75 gives its row. -/

namespace Sys2Proof.Laws.EncodedKey

/-- The key column of 30_encoding.md R75. -/
def tableKey : Instr → Word
  | .cls => 0x00E0
  | .rts => 0x00EE
  | .jmp _ => 0x1000
  | .jsr _ => 0x2000
  | .skeqImm _ _ => 0x3000
  | .skneImm _ _ => 0x4000
  | .skeqReg _ _ => 0x5000
  | .movImm _ _ => 0x6000
  | .addImm _ _ => 0x7000
  | .movReg _ _ => 0x8000
  | .orReg _ _ => 0x8001
  | .andReg _ _ => 0x8002
  | .xorReg _ _ => 0x8003
  | .addReg _ _ => 0x8004
  | .subReg _ _ => 0x8005
  | .shr _ => 0x8006
  | .rsbReg _ _ => 0x8007
  | .shl _ => 0x800E
  | .skneReg _ _ => 0x9000
  | .mvi _ => 0xA000
  | .jmi _ => 0xB000
  | .rand _ _ => 0xC000
  | .sprite _ _ _ => 0xD000
  | .skpr _ => 0xE09E
  | .skup _ => 0xE0A1
  | .gdelay _ => 0xF007
  | .key _ => 0xF00A
  | .sdelay _ => 0xF015
  | .ssound _ => 0xF018
  | .adi _ => 0xF01E
  | .font _ => 0xF029
  | .bcd _ => 0xF033
  | .str _ => 0xF055
  | .ldr _ => 0xF065

/-- The key of the encoding is the key of the row. -/
def Statement (i : Instr) : Prop := keyOf (encode i) = tableKey i

theorem cls : Statement .cls := keyOf_formatXK_byte (by decide) _ _
theorem rts : Statement .rts := keyOf_formatXK_byte (by decide) _ _
theorem jmp (nnn : BitVec 12) : Statement (.jmp nnn) := keyOf_formatA (by decide) nnn
theorem jsr (nnn : BitVec 12) : Statement (.jsr nnn) := keyOf_formatA (by decide) nnn
theorem skeqImm (x : Reg) (nn : Byte) : Statement (.skeqImm x nn) := keyOf_formatXK_plain (by decide) x nn
theorem skneImm (x : Reg) (nn : Byte) : Statement (.skneImm x nn) := keyOf_formatXK_plain (by decide) x nn
theorem skeqReg (x : Reg) (y : Reg) : Statement (.skeqReg x y) := keyOf_formatXYN_plain (by decide) _ _ _
theorem movImm (x : Reg) (nn : Byte) : Statement (.movImm x nn) := keyOf_formatXK_plain (by decide) x nn
theorem addImm (x : Reg) (nn : Byte) : Statement (.addImm x nn) := keyOf_formatXK_plain (by decide) x nn
theorem movReg (x : Reg) (y : Reg) : Statement (.movReg x y) := keyOf_formatXYN_group8 _ _ _
theorem orReg (x : Reg) (y : Reg) : Statement (.orReg x y) := keyOf_formatXYN_group8 _ _ _
theorem andReg (x : Reg) (y : Reg) : Statement (.andReg x y) := keyOf_formatXYN_group8 _ _ _
theorem xorReg (x : Reg) (y : Reg) : Statement (.xorReg x y) := keyOf_formatXYN_group8 _ _ _
theorem addReg (x : Reg) (y : Reg) : Statement (.addReg x y) := keyOf_formatXYN_group8 _ _ _
theorem subReg (x : Reg) (y : Reg) : Statement (.subReg x y) := keyOf_formatXYN_group8 _ _ _
theorem shr (x : Reg) : Statement (.shr x) := keyOf_formatXYN_group8 _ _ _
theorem rsbReg (x : Reg) (y : Reg) : Statement (.rsbReg x y) := keyOf_formatXYN_group8 _ _ _
theorem shl (x : Reg) : Statement (.shl x) := keyOf_formatXYN_group8 _ _ _
theorem skneReg (x : Reg) (y : Reg) : Statement (.skneReg x y) := keyOf_formatXYN_plain (by decide) _ _ _
theorem mvi (nnn : BitVec 12) : Statement (.mvi nnn) := keyOf_formatA (by decide) nnn
theorem jmi (nnn : BitVec 12) : Statement (.jmi nnn) := keyOf_formatA (by decide) nnn
theorem rand (x : Reg) (nn : Byte) : Statement (.rand x nn) := keyOf_formatXK_plain (by decide) x nn
theorem sprite (x : Reg) (y : Reg) (n : BitVec 4) : Statement (.sprite x y n) := keyOf_formatXYN_plain (by decide) _ _ _
theorem skpr (x : Reg) : Statement (.skpr x) := keyOf_formatXK_byte (by decide) _ _
theorem skup (x : Reg) : Statement (.skup x) := keyOf_formatXK_byte (by decide) _ _
theorem gdelay (x : Reg) : Statement (.gdelay x) := keyOf_formatXK_byte (by decide) _ _
theorem key (x : Reg) : Statement (.key x) := keyOf_formatXK_byte (by decide) _ _
theorem sdelay (x : Reg) : Statement (.sdelay x) := keyOf_formatXK_byte (by decide) _ _
theorem ssound (x : Reg) : Statement (.ssound x) := keyOf_formatXK_byte (by decide) _ _
theorem adi (x : Reg) : Statement (.adi x) := keyOf_formatXK_byte (by decide) _ _
theorem font (x : Reg) : Statement (.font x) := keyOf_formatXK_byte (by decide) _ _
theorem bcd (x : Reg) : Statement (.bcd x) := keyOf_formatXK_byte (by decide) _ _
theorem str (x : Reg) : Statement (.str x) := keyOf_formatXK_byte (by decide) _ _
theorem ldr (x : Reg) : Statement (.ldr x) := keyOf_formatXK_byte (by decide) _ _

end Sys2Proof.Laws.EncodedKey
end

