-- ==== Sys2Proof/Tests/Slice0.lean ====
section
/-! SUPPORT. Tests of the model's own work: the well-formedness checks refuse, every constructor decodes from a word written
out from its encoding, single steps with the values of 95_test_vectors.md, and for each obligation with hypotheses a
concrete state that meets them. Expected values come from the spec. -/

namespace Sys2Proof.Tests

open Sys2Proof Sys2Proof.Machine

/-! ## Helpers -/

/-- `s` with the listed registers set. -/
def withV (l : List (Reg × Byte)) (s : State) : State := l.foldl (fun s p => s.setV p.1 p.2) s

/-- `s` with the bytes in memory from `a` up. -/
def withBytes (a : Nat) (bs : List Byte) (s : State) : State := { s with mem := Memory.writeBytes s.mem a bs }

/-- `s` with `op` where the next fetch reads. -/
def at_ (op : Word) (s : State) : State := s.storeOpcode op

/-- The state after one step. -/
def after (s : State) : State :=
  match step s with
  | .next t => t
  | .fault _ => s
  | .refused _ => s

/-- The state after a cycle that fetches `op` at the `PC` of `s`. -/
def runs (op : Word) (s : State) : State := after (at_ op s)

/-- `s` with `CYC == 4`, so that completing a cycle ticks. -/
def fifth (s : State) : State := { s with cyc := 4 }

/-- The sixteen registers. -/
def regsOf (s : State) : List Byte := s.v.toList

/-! ## Well-formedness refuses -/

/-- 30_encoding.md R78: the mask of group 0 is 0xF0FF, not 0xF000. -/
theorem test_skipped_key_wrong_mask : Config.SkippedKey.wellFormed { key := 0x0023, mask := 0xF000 } = false := by decide

/-- A key with a bit outside its mask. -/
theorem test_skipped_key_stray_bit : Config.SkippedKey.wellFormed { key := 0x0123, mask := 0xF0FF } = false := by decide

/-- A key of the opcode table, `cls`. -/
theorem test_skipped_key_in_table : Config.SkippedKey.wellFormed { key := 0x00E0, mask := 0xF0FF } = false := by decide

/-- The machine call 0x0NNN with `NN == 0x23`, in no row: a legal member of `UNIMPL`. -/
theorem test_skipped_key_good : Config.SkippedKey.wellFormed { key := 0x0023, mask := 0xF0FF } = true := by decide

theorem test_params_refused :
    Config.Params.wellFormed { Config.Params.default with unimpl := [⟨0x0023, 0xF0FF⟩, ⟨0x00E0, 0xF0FF⟩] } = false := by
  decide

theorem test_params_good : Config.Params.wellFormed Config.Params.default = true := by decide

/-- 70_reset_and_hazards.md R251: 3584 bytes fit, 3585 do not. -/
theorem test_rom_bound : romFits (List.replicate 3584 0) = true ∧ romFits (List.replicate 3585 0) = false := by
  unfold romFits
  rw [List.length_replicate, List.length_replicate]
  decide

/-! ## Decoding, words written from the rows of 30_encoding.md R75 -/

theorem test_decode_group0 :
    decodeWord 0b0000_0000_1110_0000#16 = .ok .cls ∧ decodeWord 0b0000_0000_1110_1110#16 = .ok .rts ∧
    decodeWord 0b0000_1111_1110_1110#16 = .ok .rts := by decide

theorem test_decode_jumps :
    decodeWord 0b0001_1010_1011_1100#16 = .ok (.jmp 0xABC) ∧
    decodeWord 0b0010_0011_0000_0000#16 = .ok (.jsr 0x300) ∧
    decodeWord 0b1011_1111_1111_1111#16 = .ok (.jmi 0xFFF) := by decide

theorem test_decode_skips :
    decodeWord 0b0011_0011_0100_0010#16 = .ok (.skeqImm 3 0x42) ∧
    decodeWord 0b0100_0011_0100_0011#16 = .ok (.skneImm 3 0x43) ∧
    decodeWord 0b0101_0001_0010_1111#16 = .ok (.skeqReg 1 2) ∧
    decodeWord 0b1001_0001_0010_0000#16 = .ok (.skneReg 1 2) := by decide

theorem test_decode_immediates :
    decodeWord 0b0110_1010_1111_1111#16 = .ok (.movImm 10 0xFF) ∧
    decodeWord 0b0111_0000_0000_0001#16 = .ok (.addImm 0 0x01) ∧
    decodeWord 0b1010_0001_0010_0011#16 = .ok (.mvi 0x123) ∧
    decodeWord 0b1100_0101_0000_1111#16 = .ok (.rand 5 0x0F) := by decide

theorem test_decode_group8 :
    decodeWord 0b1000_0001_0010_0000#16 = .ok (.movReg 1 2) ∧
    decodeWord 0b1000_0001_0010_0001#16 = .ok (.orReg 1 2) ∧
    decodeWord 0b1000_0001_0010_0010#16 = .ok (.andReg 1 2) ∧
    decodeWord 0b1000_0001_0010_0011#16 = .ok (.xorReg 1 2) ∧
    decodeWord 0b1000_0001_0010_0100#16 = .ok (.addReg 1 2) ∧
    decodeWord 0b1000_0001_0010_0101#16 = .ok (.subReg 1 2) ∧
    decodeWord 0b1000_0001_1110_0110#16 = .ok (.shr 1) ∧
    decodeWord 0b1000_0001_0010_0111#16 = .ok (.rsbReg 1 2) ∧
    decodeWord 0b1000_0001_1110_1110#16 = .ok (.shl 1) := by decide

theorem test_decode_sprite_and_keys :
    decodeWord 0b1101_0001_0010_1111#16 = .ok (.sprite 1 2 15) ∧
    decodeWord 0b1110_0001_1001_1110#16 = .ok (.skpr 1) ∧
    decodeWord 0b1110_0001_1010_0001#16 = .ok (.skup 1) := by decide

theorem test_decode_groupF :
    decodeWord 0b1111_0001_0000_0111#16 = .ok (.gdelay 1) ∧
    decodeWord 0b1111_1111_0000_1010#16 = .ok (.key 15) ∧
    decodeWord 0b1111_0000_0001_0101#16 = .ok (.sdelay 0) ∧
    decodeWord 0b1111_0000_0001_1000#16 = .ok (.ssound 0) ∧
    decodeWord 0b1111_0000_0001_1110#16 = .ok (.adi 0) ∧
    decodeWord 0b1111_0000_0010_1001#16 = .ok (.font 0) ∧
    decodeWord 0b1111_0000_0011_0011#16 = .ok (.bcd 0) ∧
    decodeWord 0b1111_0010_0101_0101#16 = .ok (.str 2) ∧
    decodeWord 0b1111_0100_0110_0101#16 = .ok (.ldr 4) := by decide

/-- 95_test_vectors.md 2.6: no such row. -/
theorem test_decode_failures :
    [0x0000, 0x00E1, 0x0123, 0x8AB8, 0xE000, 0xE19F, 0xF000, 0xF066, 0xF075, 0xFFFF].all
      (fun op : Word => decodeWord op == .error (.noSuchInstruction op)) = true := by decide

/-- 95_test_vectors.md 2.7 #1: the byte at the lower address is the high half. -/
theorem test_decode_big_endian : decodeBytes [0x12, 0x34, 0x56] = .ok (.jmp 0x234, [0x56]) := by decide

theorem test_decode_truncated : decodeBytes [0x12] = .error .truncated := by decide

theorem test_encode_words :
    [encode (.jmp 0xABC), encode (.skeqImm 3 0x42), encode (.skeqReg 1 2), encode (.rsbReg 10 11), encode (.shl 10),
     encode (.sprite 1 2 15), encode (.skup 1), encode (.ldr 4)] =
    [0x1ABC, 0x3342, 0x5120, 0x8AB7, 0x8A0E, 0xD12F, 0xE1A1, 0xF465] := by decide

/-! ## The host's words -/

theorem test_table_word : decodeTableWord 16 0x8124 = some (.addReg 1 2) ∧ decodeTableWord 16 0x0000 = none := by decide

/-- The very next step after `withFetchWord` runs the instruction, from reset and from a halt. -/
theorem test_with_fetch_word :
    (after (State.reset.withFetchWord 16 0x6AFF)).getV 10 = 0xFF ∧
    (after ((raiseHalt .fetchRange 0x0FFF { State.reset with pc := 0x0FFF }).withFetchWord 16 0x6AFF)).getV 10 = 0xFF := by
  decide

/-! ## Single steps, values of 95_test_vectors.md (section and row in each comment) -/

/-- 2.1 #1. -/
theorem test_jmp : (runs 0x1ABC State.reset).pc = 0x0ABC := by decide

/-- 2.1 #5, #6. -/
theorem test_jsr :
    (let t := runs 0x2300 { State.reset with sp := 15 }
     t.stack[15] = 0x0202 ∧ t.sp = 16 ∧ t.pc = 0x0300) ∧
    (let t := runs 0x2300 { State.reset with sp := 16 }
     t.status = .halted .stackOverflow 0x0200 ∧ t.pc = 0x0202 ∧ t.sp = 16 ∧ t.cyc = 0) := by decide

/-- 2.1 #7, #8. -/
theorem test_rts :
    (let t := runs 0x00EE { State.reset with sp := 1, stack := State.reset.stack.set 0 0x0ABC }
     t.sp = 0 ∧ t.pc = 0x0ABC ∧ t.stack[0] = 0x0ABC) ∧
    (let t := runs 0x00EE State.reset
     t.status = .halted .stackUnderflow 0x0200 ∧ t.pc = 0x0202) := by decide

/-- 2.1 #12: not reduced to 12 bits; the next cycle halts. -/
theorem test_jmi :
    (runs 0xBFFF (withV [(0, 0xFF)] State.reset)).pc = 0x10FE ∧
    (after { State.reset with pc := 0x10FE }).status = .halted .fetchRange 0x10FE := by decide

/-- 2.1 #13, #14. -/
theorem test_skeq_imm :
    (runs 0x3342 (withV [(3, 0x42)] State.reset)).pc = 0x0204 ∧
    (runs 0x3343 (withV [(3, 0x42)] State.reset)).pc = 0x0202 := by decide

/-- 2.1 #15, #16. -/
theorem test_skne_imm :
    (runs 0x4342 (withV [(3, 0x42)] State.reset)).pc = 0x0202 ∧
    (runs 0x4343 (withV [(3, 0x42)] State.reset)).pc = 0x0204 := by decide

/-- 2.1 #19, #20: the low nibble is ignored. -/
theorem test_skeq_reg :
    (runs 0x5001 State.reset).pc = 0x0204 ∧ (runs 0x512F (withV [(1, 7), (2, 8)] State.reset)).pc = 0x0202 := by decide

/-- 2.1 #21, #23. -/
theorem test_skne_reg :
    (runs 0x9120 (withV [(1, 7), (2, 8)] State.reset)).pc = 0x0204 ∧ (runs 0x9AA7 State.reset).pc = 0x0202 := by decide

/-- 2.2 #1, #2. -/
theorem test_mov_imm : (runs 0x6AFF State.reset).getV 10 = 0xFF ∧ (runs 0x6F07 State.reset).getV 15 = 0x07 := by decide

/-- 2.2 #3: wraps, no carry flag. -/
theorem test_add_imm :
    let t := runs 0x7001 (withV [(0, 0xFF)] State.reset)
    t.getV 0 = 0 ∧ t.getV 15 = 0 := by decide

/-- 2.2 #6. -/
theorem test_mov_reg :
    let t := runs 0x8120 (withV [(2, 0x5A)] State.reset)
    t.getV 1 = 0x5A ∧ t.getV 2 = 0x5A := by decide

/-- 2.2 #7. -/
theorem test_or :
    let t := runs 0x8121 (withV [(1, 0x0F), (2, 0xF0), (15, 1)] State.reset)
    t.getV 1 = 0xFF ∧ t.getV 15 = 1 := by decide

/-- 2.2 #8. -/
theorem test_and :
    let t := runs 0x8122 (withV [(1, 0x0F), (2, 0xF0), (15, 1)] State.reset)
    t.getV 1 = 0 ∧ t.getV 15 = 1 := by decide

/-- 2.2 #9. -/
theorem test_xor :
    let t := runs 0x8123 (withV [(1, 0xFF), (2, 0x0F), (15, 1)] State.reset)
    t.getV 1 = 0xF0 ∧ t.getV 15 = 1 := by decide

/-- 2.2 #12, #13: 255 is no carry, 256 is. -/
theorem test_add_reg :
    (let t := runs 0x8124 (withV [(1, 255), (2, 0), (15, 1)] State.reset)
     t.getV 1 = 255 ∧ t.getV 15 = 0) ∧
    (let t := runs 0x8124 (withV [(1, 255), (2, 1)] State.reset)
     t.getV 1 = 0 ∧ t.getV 15 = 1) := by decide

/-- 2.2 #16, #18: the flag is written last, the operand VF is read first. -/
theorem test_add_reg_VF :
    (runs 0x8F14 (withV [(15, 200), (1, 100)] State.reset)).getV 15 = 1 ∧
    (let t := runs 0x80F4 (withV [(0, 255), (15, 1)] State.reset)
     t.getV 0 = 0 ∧ t.getV 15 = 1) := by decide

/-- W2. -/
theorem test_sub :
    (let t := runs 0x8125 (withV [(1, 3), (2, 5)] State.reset)
     t.getV 1 = 254 ∧ t.getV 15 = 0) ∧
    (let t := runs 0x8125 (withV [(1, 5), (2, 3)] State.reset)
     t.getV 1 = 2 ∧ t.getV 15 = 1) := by decide

/-- 2.2 #20: equal operands do not borrow. -/
theorem test_sub_equal :
    let t := runs 0x8125 (withV [(1, 7), (2, 7)] State.reset)
    t.getV 1 = 0 ∧ t.getV 15 = 1 := by decide

/-- 2.2 #26, #27. -/
theorem test_rsb :
    (let t := runs 0x8127 (withV [(1, 3), (2, 5)] State.reset)
     t.getV 1 = 2 ∧ t.getV 15 = 1) ∧
    (let t := runs 0x8127 (withV [(1, 5), (2, 3)] State.reset)
     t.getV 1 = 254 ∧ t.getV 15 = 0) := by decide

/-- 2.2 #34, #35. -/
theorem test_shr :
    (let t := runs 0x81E6 (withV [(1, 0x05), (14, 0xF0)] State.reset)
     t.getV 1 = 2 ∧ t.getV 15 = 1 ∧ t.getV 14 = 0xF0) ∧
    (runs 0x8F06 (withV [(15, 2)] State.reset)).getV 15 = 0 := by decide

/-- 2.2 #37, #42. -/
theorem test_shl :
    (let t := runs 0x810E (withV [(1, 0x81)] State.reset)
     t.getV 1 = 2 ∧ t.getV 15 = 1) ∧
    (runs 0x8F0E (withV [(15, 0x40)] State.reset)).getV 15 = 0 := by decide

/-- 2.2 #45: draw 0xA7. -/
theorem test_rand : (randWith 0xA7 5 0x0F State.reset).getV 5 = 0x07 := by decide

/-- 2.3 #2. -/
theorem test_mvi : (runs 0xAFFF { State.reset with i := 0x1234 }).i = 0x0FFF := by decide

/-- 2.3 #3, #4. -/
theorem test_adi :
    (runs 0xF01E (withV [(0, 1)] { State.reset with i := 0x0FFF })).i = 0x1000 ∧
    (runs 0xF01E (withV [(0, 1)] { State.reset with i := 0xFFFF })).i = 0 := by decide

/-- 2.3 #7, #10. -/
theorem test_font :
    (runs 0xF029 (withV [(0, 7)] State.reset)).i = 0x0023 ∧ (runs 0xF029 (withV [(0, 0xFF)] State.reset)).i = 0x04FB := by
  decide

/-- 2.3 #16: the last three bytes of memory. -/
theorem test_bcd :
    let t := runs 0xF033 (withV [(0, 255)] { State.reset with i := 0x0FFD })
    t.readByte 4093 = 2 ∧ t.readByte 4094 = 5 ∧ t.readByte 4095 = 5 ∧ t.i = 0x0FFD := by decide

/-- 2.3 #17: nothing is written. -/
theorem test_bcd_halts :
    let t := runs 0xF033 (withV [(0, 255)] { State.reset with i := 0x0FFE })
    t.status = .halted .dataRange 0x0200 ∧ t.pc = 0x0202 ∧ t.readByte 4094 = 0 ∧ t.readByte 4095 = 0 := by decide

/-- 2.3 #19, #22. -/
theorem test_str :
    (let t := runs 0xF255 (withV [(0, 1), (1, 2), (2, 3)] { State.reset with i := 0x300 })
     Memory.readBytes t.mem 0x300 4 = [1, 2, 3, 0] ∧ t.i = 0x300) ∧
    (runs 0xF055 (withV [(0, 0xAA)] State.reset)).readByte 0 = 0xAA := by decide

/-- 2.3 #21: no byte is written. -/
theorem test_str_halts :
    let t := runs 0xFF55 (withV [(0, 1), (1, 2)] { State.reset with i := 0x0FF1 })
    t.status = .halted .dataRange 0x0200 ∧ t.mem = (at_ 0xFF55 State.reset).mem := by decide

/-- 2.3 #23. -/
theorem test_ldr : (regsOf (runs 0xF465 State.reset)).take 6 = [0xF0, 0x90, 0x90, 0x90, 0xF0, 0] := by decide

/-- 2.3 #25, #26. -/
theorem test_ldr_boundary :
    (runs 0xF065 (withBytes 4095 [0x5A] { State.reset with i := 0x0FFF })).getV 0 = 0x5A ∧
    (let t := runs 0xF165 (withBytes 4095 [0x5A] { State.reset with i := 0x0FFF })
     t.status = .halted .dataRange 0x0200 ∧ t.getV 0 = 0) := by decide

/-- 2.4 #1. -/
theorem test_cls :
    let t := runs 0x00E0 (withV [(15, 1)] { State.reset with fb := [⟨5, 2⟩, ⟨6, 2⟩] })
    t.fb = [] ∧ t.getV 15 = 1 := by decide

/-- 2.4 #8 to #10: two rows across the corner, under each `DISPLAY_NORM`. -/
theorem test_sprite_norms :
    let drawn := fun mode => (runs 0xD012
      (withV [(0, 62), (1, 31)] { State.reset with params := { Config.Params.default with displayNorm := mode } })).fb
    drawn .store = [⟨62, 31⟩, ⟨63, 31⟩, ⟨64, 31⟩, ⟨65, 31⟩, ⟨62, 32⟩, ⟨65, 32⟩] ∧
    drawn .wrap = [⟨1, 0⟩, ⟨62, 0⟩, ⟨0, 31⟩, ⟨1, 31⟩, ⟨62, 31⟩, ⟨63, 31⟩] ∧
    drawn .clip = [⟨62, 31⟩, ⟨63, 31⟩] := by decide

/-- 2.4 #6: collisions, some pixels off and some on. -/
theorem test_sprite_collision :
    let glyph0 : List Pixel := [⟨0, 0⟩, ⟨1, 0⟩, ⟨2, 0⟩, ⟨3, 0⟩, ⟨0, 1⟩, ⟨3, 1⟩, ⟨0, 2⟩, ⟨3, 2⟩, ⟨0, 3⟩, ⟨3, 3⟩,
      ⟨0, 4⟩, ⟨1, 4⟩, ⟨2, 4⟩, ⟨3, 4⟩]
    let t := runs 0xD015 { State.reset with i := 0x005, fb := glyph0 }
    t.fb = [⟨0, 0⟩, ⟨1, 0⟩, ⟨3, 0⟩, ⟨0, 1⟩, ⟨1, 1⟩, ⟨2, 1⟩, ⟨3, 1⟩, ⟨0, 2⟩, ⟨2, 2⟩, ⟨3, 2⟩, ⟨0, 3⟩, ⟨2, 3⟩,
      ⟨3, 3⟩, ⟨0, 4⟩] ∧ t.getV 15 = 1 := by decide

/-- 2.5 #1, #2 (`V[4] == 0x0A`, either answer), with the poll's answer given. -/
theorem test_skpr :
    (skprWith true { State.reset with pc := 0x0202 }).pc = 0x0204 ∧
    (skprWith false { State.reset with pc := 0x0202 }).pc = 0x0202 := by decide

/-- 2.5 #4, #5. -/
theorem test_skup :
    (skupWith false { State.reset with pc := 0x0202 }).pc = 0x0204 ∧
    (skupWith true { State.reset with pc := 0x0202 }).pc = 0x0202 := by decide

/-- 2.5 #3, #6: a code above 15 is no key. -/
theorem test_no_such_key :
    (runs 0xE49E (withV [(4, 0x1A)] State.reset)).pc = 0x0202 ∧
    (runs 0xE4A1 (withV [(4, 0x1A)] State.reset)).pc = 0x0204 := by decide

/-- 2.5 #7. -/
theorem test_key_waits :
    let t := runs 0xF30A State.reset
    t.status = .waiting 3 ∧ t.pc = 0x0202 ∧ t.cyc = 0 := by decide

/-- 2.5 #10: the divider fires on completion. -/
theorem test_key_resolved :
    let t := after { State.reset with status := .waiting 3, pc := 0x0202, cyc := 4, dt := 7, inbox := [.keyResolved 0xB] }
    t.getV 3 = 0x0B ∧ t.status = .running ∧ t.cyc = 0 ∧ t.dt = 6 := by decide

/-- 2.5 #14: read before the tick. -/
theorem test_gdelay :
    let t := runs 0xF107 (fifth { State.reset with dt := 9 })
    t.getV 1 = 9 ∧ t.dt = 8 ∧ t.cyc = 0 := by decide

/-- 2.5 #16: set, then counted down in the same event. -/
theorem test_sdelay : (runs 0xF015 (fifth (withV [(0, 10)] State.reset))).dt = 9 := by decide

/-- 2.5 #18, #19. -/
theorem test_ssound :
    (let t := runs 0xF018 (fifth (withV [(0, 1)] State.reset))
     t.st = 0 ∧ t.beeps = 1) ∧
    (let t := runs 0xF018 (fifth { State.reset with st := 3 })
     t.st = 0 ∧ t.beeps = 0) := by decide

/-! ## Events -/

/-- 2.5 #21 to #23. -/
theorem test_tick :
    (let t := tick { State.reset with dt := 1, st := 1 }
     t.dt = 0 ∧ t.st = 0 ∧ t.beeps = 1) ∧
    (let t := tick { State.reset with dt := 255, st := 2 }
     t.dt = 254 ∧ t.st = 1 ∧ t.beeps = 0) ∧
    (let t := tick { State.reset with dt := 5 }
     t.dt = 4 ∧ t.st = 0) := by decide

/-- 2.7 #2, #3: the last fetch, and the first past it. -/
theorem test_fetch_boundary :
    (runs 0x1200 { State.reset with pc := 0x0FFE }).pc = 0x0200 ∧
    (let t := after { State.reset with pc := 0x0FFF }
     t.status = .halted .fetchRange 0x0FFF ∧ t.pc = 0x0FFF) := by decide

/-- 2.7 #7: the first cycle from the reset state halts. -/
theorem test_empty_image :
    let t := after State.reset
    t.status = .halted .decodeFailure 0x0200 ∧ t.pc = 0x0202 ∧ t.cyc = 0 := by decide

/-- 30_encoding.md R78: with 0x0023 in `UNIMPL` the opcode 0x0123 is skipped. -/
theorem test_skipped_opcode :
    let t := runs 0x0123 { State.reset with params := { Config.Params.default with unimpl := [⟨0x0023, 0xF0FF⟩] } }
    t.status = .running ∧ t.pc = 0x0202 ∧ t.cyc = 1 := by decide

/-- 30_encoding.md R78, 40_dispatcher_cycle.md R108: as the fifth cycle it ticks, as the fourth it leaves the timers. -/
theorem test_skipped_opcode_counts :
    let skip := fun c => runs 0x0123
      { State.reset with params := ⟨.divided, .store, [⟨0x0023, 0xF0FF⟩]⟩, cyc := c, dt := 7, st := 1 }
    ((skip 4).cyc = 0 ∧ (skip 4).dt = 6 ∧ (skip 4).st = 0 ∧ (skip 4).beeps = 1) ∧
    ((skip 3).cyc = 4 ∧ (skip 3).dt = 7 ∧ (skip 3).st = 1 ∧ (skip 3).beeps = 0) := by decide

/-- 2.1 table, column fb: #1 and #2. -/
theorem test_flow_break :
    (runs 0x1ABC State.reset).trace =
      some (.executed 0x0200 (.jmp 0xABC) true ⟨State.reset.v, 0x0ABC, 0, 0⟩) ∧
    (runs 0x1202 State.reset).trace =
      some (.executed 0x0200 (.jmp 0x202) false ⟨State.reset.v, 0x0202, 0, 0⟩) := by decide

/-- 2.8: the image is loaded at 0x200. -/
theorem test_reset_event :
    let t := after { raiseHalt .dataRange 0x0204 State.reset with inbox := [.reset [0x12, 0x00]], dt := 3, pc := 0x0206 }
    t.status = .running ∧ t.pc = 0x0200 ∧ t.dt = 0 ∧ Memory.readBytes t.mem 0x1FF 4 = [0, 0x12, 0, 0] := by decide

/-! ## Witnesses: for each obligation with hypotheses, a state and operands that meet them -/

theorem witness_MaskFollowsTheTopNibble :
    (0x8124 : Word).toNat / 4096 = 8 ∧ (0x00E0 : Word).toNat / 4096 = 0 ∧ (0xE19E : Word).toNat / 4096 = 14 ∧
    (0xF007 : Word).toNat / 4096 = 15 ∧
    ((0x7FFF : Word).toNat / 4096 ≠ 8 ∧ (0x7FFF : Word).toNat / 4096 ≠ 0 ∧ (0x7FFF : Word).toNat / 4096 ≠ 14 ∧
      (0x7FFF : Word).toNat / 4096 ≠ 15) := by decide

theorem witness_OpcodeSelectsAtMostOneRow :
    (∃ r ∈ opcodeTable, ∃ q ∈ opcodeTable, 0x8AB4#16 &&& r.mask = r.key ∧ 0x8AB4#16 &&& q.mask = q.key) ∧
    (∀ r ∈ opcodeTable, 0x8AB8#16 &&& r.mask ≠ r.key) := by decide

theorem witness_OnlyIgnoredBitsAreLost :
    decodeWord 0x5ABF = .ok (.skeqReg 10 11) ∧
    (0x5AB0#16 &&& usedBits (.skeqReg 10 11) = 0x5ABF#16 &&& usedBits (.skeqReg 10 11)) := by decide

/-- A state that runs `op` from 0x0FFE, the last address a fetch can read, with `Cycle` delivered. -/
def lastFetch (op : Word) : State := at_ op { State.reset with pc := 0x0FFE, inbox := [.cycle, .tick] }

theorem witness_StepRunsTheDecodedInstruction :
    (let s := lastFetch 0x6AFF
     s.status = .running ∧ (s.inbox = [] ∨ s.inbox.head? = some .cycle) ∧ s.pc.toNat + 1 < 4096 ∧
     decodeBytes [s.readByte s.pc.toNat, s.readByte (s.pc.toNat + 1)] = .ok (.movImm 10 0xFF, []) ∧
     ∃ t, exec (.movImm 10 0xFF) { s with pc := s.pc + 2, inbox := s.inbox.tail } = .next t ∧ t.status = .running) ∧
    (let s := at_ 0xF30A State.reset
     s.status = .running ∧ (s.inbox = [] ∨ s.inbox.head? = some .cycle) ∧ s.pc.toNat + 1 < 4096 ∧
     decodeBytes [s.readByte s.pc.toNat, s.readByte (s.pc.toNat + 1)] = .ok (.key 3, []) ∧
     ∃ t, exec (.key 3) { s with pc := s.pc + 2, inbox := s.inbox.tail } = .next t ∧ t.status ≠ .running) := by
  refine ⟨⟨by decide, by decide, by decide, by decide, _, rfl, by decide⟩,
    ⟨by decide, by decide, by decide, by decide, _, rfl, by decide⟩⟩

theorem witness_FetchPastTheEndHalts :
    let s := { State.reset with pc := 0x0FFF }
    s.status = .running ∧ CycleIsNext s ∧ 4095 ≤ s.pc.toNat := ⟨by decide, .inl rfl, by decide⟩

theorem witness_DecodeFailureHalts :
    let s := lastFetch 0x8008
    s.status = .running ∧ CycleIsNext s ∧ s.pc.toNat + 1 < 4096 ∧
    0x8008 = opcodeOfBytes (s.readByte s.pc.toNat) (s.readByte (s.pc.toNat + 1)) ∧
    decodeWord 0x8008 = .error (.noSuchInstruction 0x8008) ∧ isSkipped s.params.unimpl 0x8008 = false :=
  ⟨by decide, .inr rfl, by decide, by decide, by decide, by decide⟩

theorem witness_SkippedOpcodeOnlyCompletes :
    (let s := at_ 0x0123 { State.reset with params := ⟨.divided, .store, [⟨0x0023, 0xF0FF⟩]⟩, cyc := 4, st := 1 }
     s.status = .running ∧ CycleIsNext s ∧ s.pc.toNat + 1 < 4096 ∧
     0x0123 = opcodeOfBytes (s.readByte s.pc.toNat) (s.readByte (s.pc.toNat + 1)) ∧
     decodeWord 0x0123 = .error (.noSuchInstruction 0x0123) ∧ isSkipped s.params.unimpl 0x0123 = true ∧
     s.params.timerMode = .divided) ∧
    (let s := at_ 0x0123 { State.reset with params := ⟨.external, .store, [⟨0x0023, 0xF0FF⟩]⟩ }
     s.status = .running ∧ CycleIsNext s ∧ s.pc.toNat + 1 < 4096 ∧
     0x0123 = opcodeOfBytes (s.readByte s.pc.toNat) (s.readByte (s.pc.toNat + 1)) ∧
     decodeWord 0x0123 = .error (.noSuchInstruction 0x0123) ∧ isSkipped s.params.unimpl 0x0123 = true ∧
     s.params.timerMode = .external) :=
  ⟨⟨by decide, .inl rfl, by decide, by decide, by decide, by decide, rfl⟩,
   ⟨by decide, .inl rfl, by decide, by decide, by decide, by decide, rfl⟩⟩

theorem witness_IdleMachineIgnoresEvents :
    (let s := { State.reset with status := .waiting 3 }
     s.status ≠ .running ∧ CycleIsNext s) ∧
    (let s := { State.reset with status := .halted .fetchRange 0x0FFF, inbox := [.tick] }
     s.status ≠ .running ∧ s.inbox.head? = some .tick) ∧
    (let s := { State.reset with inbox := [.keyResolved 5] }
     s.inbox.head? = some (.keyResolved 5) ∧ ∀ x, s.status ≠ .waiting x) :=
  ⟨⟨by decide, .inl rfl⟩, ⟨by decide, rfl⟩, ⟨rfl, by decide⟩⟩

theorem witness_HaltedMachineNeverMoves :
    let s := { State.reset with status := .halted .dataRange 0x0200, inbox := [.tick, .cycle, .keyResolved 3] }
    s.haltedPort = true ∧ ∀ rom, HostEvent.reset rom ∉ s.inbox := ⟨by decide, by simp⟩

theorem witness_HandlerHaltsArePreciseAndListed :
    (let s := { State.reset with pc := 0x0202, sp := 16 }
     s.status = .running ∧ ∃ t, exec (.jsr 0x300) s = .next t ∧ t.status = .halted .stackOverflow 0x0200) ∧
    (let s := { State.reset with pc := 0x0202 }
     s.status = .running ∧ ∃ t, exec .rts s = .next t ∧ t.status = .halted .stackUnderflow 0x0200) ∧
    (let s := { State.reset with pc := 0x0202, i := 4094 }
     s.status = .running ∧ (∃ t, exec (.bcd 0) s = .next t ∧ t.status = .halted .dataRange 0x0200) ∧
     (∃ t, exec (.str 2) s = .next t ∧ t.status = .halted .dataRange 0x0200) ∧
     (∃ t, exec (.ldr 2) s = .next t ∧ t.status = .halted .dataRange 0x0200) ∧
     ∃ t, exec (.sprite 0 0 3) s = .next t ∧ t.status = .halted .dataRange 0x0200) :=
  ⟨⟨rfl, _, rfl, rfl⟩, ⟨rfl, _, rfl, rfl⟩, ⟨rfl, ⟨_, rfl, rfl⟩, ⟨_, rfl, rfl⟩, ⟨_, rfl, rfl⟩, _, rfl, rfl⟩⟩

theorem witness_ResetBuildsTheStateFromTheImage :
    ({ State.reset with inbox := [.reset [0x12, 0x00], .cycle] } : State).inbox = .reset [0x12, 0x00] :: [.cycle] ∧
    [0x12#8, 0x00#8].length ≤ 3584 := ⟨rfl, by decide⟩

theorem witness_ResetRefusesALongImage :
    ({ State.reset with inbox := [.reset (List.replicate 3585 0)] } : State).inbox =
      .reset (List.replicate 3585 0) :: [] ∧ 3584 < (List.replicate 3585 (0 : Byte)).length := ⟨rfl, by rw [List.length_replicate]; decide⟩

theorem witness_TickCountsBothTimersDown :
    (let s := { State.reset with params := ⟨.external, .store, []⟩, inbox := [.tick], dt := 1, st := 1 }
     s.inbox.head? = some .tick ∧ s.params.timerMode = .external ∧ s.status = .running) ∧
    (let s := { State.reset with params := ⟨.external, .store, []⟩, inbox := [.tick], dt := 1, status := .waiting 0 }
     s.inbox.head? = some .tick ∧ s.params.timerMode = .external ∧ s.status ≠ .running) := by decide

theorem witness_DividedModeHasNoTickInput :
    let s := { State.reset with inbox := [.tick] }
    s.inbox.head? = some .tick ∧ s.params.timerMode = .divided := by decide

theorem witness_OnePulsePerSoundTimerExpiry :
    ({ State.reset with st := 1 } : State).st.toNat = 1 ∧ ({ State.reset with st := 2 } : State).st.toNat ≠ 1 ∧
    ∃ t, exec (.ssound 0) { State.reset with st := 1 } = .next t := ⟨by decide, by decide, _, rfl⟩

theorem witness_EveryFifthCompletedCycleTicks :
    ({ State.reset with cyc := 4 } : State).params.timerMode = .divided ∧
    ({ State.reset with params := ⟨.external, .store, []⟩ } : State).params.timerMode = .external := by decide

theorem witness_DelayRunsOutAtTheKthCycle :
    let s := { State.reset with dt := 10, cyc := 3 }
    s.params.timerMode = .divided ∧ 1 ≤ s.dt.toNat := by decide

theorem witness_OnlyBcdAndStrWriteMemory :
    (∃ t, exec (.ldr 4) State.reset = .next t) ∧ (∀ x, Instr.ldr 4 ≠ .bcd x) ∧ ∀ x, Instr.ldr 4 ≠ .str x :=
  ⟨⟨_, rfl⟩, by simp, by simp⟩

theorem witness_OnlyClsAndSpriteReachTheDisplay :
    (∃ t, exec .cls { State.reset with fb := [⟨1, 1⟩] } = .next t ∧ t.fb ≠ [⟨1, 1⟩]) ∧
    ∃ t, exec (.sprite 0 1 5) State.reset = .next t ∧ t.fb ≠ State.reset.fb :=
  ⟨⟨_, rfl, by decide⟩, _, rfl, by decide⟩

theorem witness_OnlyCallAndReturnMoveTheStack :
    (∃ t, exec (.jsr 0x300) { State.reset with sp := 15 } = .next t ∧ t.sp ≠ 15 ∧ t.stack ≠ State.reset.stack) ∧
    ∃ t, exec .rts { State.reset with sp := 16 } = .next t ∧ t.sp ≠ 16 :=
  ⟨⟨_, rfl, by decide, by decide⟩, _, rfl, by decide⟩

theorem witness_FlagRegisterIsWrittenOnlyAsListed :
    (∃ t, exec (.subReg 0 0) State.reset = .next t ∧ t.getV 15 ≠ State.reset.getV 15) ∧
    (∃ t, exec (.shl 0) (withV [(0, 0x80)] State.reset) = .next t ∧ t.getV 15 ≠ 0) ∧
    (∃ t, exec (.sprite 0 1 1) { State.reset with fb := [⟨0, 0⟩] } = .next t ∧ t.getV 15 ≠ 0) ∧
    (∃ t, exec (.movImm 15 7) State.reset = .next t ∧ t.getV 15 ≠ 0) ∧
    (∃ t, exec (.movReg 15 1) (withV [(1, 7)] State.reset) = .next t ∧ t.getV 15 ≠ 0) ∧
    (∃ t, exec (.gdelay 15) { State.reset with dt := 9 } = .next t ∧ t.getV 15 ≠ 0) ∧
    ∃ t, exec (.ldr 15) State.reset = .next t ∧ t.getV 15 ≠ 0 :=
  ⟨⟨_, rfl, by decide⟩, ⟨_, rfl, by decide⟩, ⟨_, rfl, by decide⟩, ⟨_, rfl, by decide⟩, ⟨_, rfl, by decide⟩,
   ⟨_, rfl, by decide⟩, _, rfl, by decide⟩

theorem witness_IndexIsWrittenOnlyByIndexInstructions :
    (∃ t, exec (.mvi 0xFFF) State.reset = .next t ∧ t.i ≠ State.reset.i) ∧
    (∃ t, exec (.adi 0) (withV [(0, 1)] State.reset) = .next t ∧ t.i ≠ 0) ∧
    ∃ t, exec (.font 0) (withV [(0, 1)] State.reset) = .next t ∧ t.i ≠ 0 :=
  ⟨⟨_, rfl, by decide⟩, ⟨_, rfl, by decide⟩, _, rfl, by decide⟩

theorem witness_TimersAreSetOnlyByTheirInstructions :
    (∃ t, exec (.sdelay 0) (withV [(0, 10)] State.reset) = .next t ∧ t.dt ≠ 0) ∧
    ∃ t, exec (.ssound 0) (withV [(0, 10)] State.reset) = .next t ∧ t.st ≠ 0 :=
  ⟨⟨_, rfl, by decide⟩, _, rfl, by decide⟩

theorem witness_OnlyTransfersAndSkipsMovePc :
    (∃ t, exec (.jmp 0xABC) State.reset = .next t ∧ t.pc ≠ State.reset.pc) ∧
    ∃ t, exec (.skeqImm 0 0) State.reset = .next t ∧ t.pc ≠ State.reset.pc :=
  ⟨⟨_, rfl, by decide⟩, _, rfl, by decide⟩

/-- The reset state meets the invariant, field by field. -/
theorem reset_meets_invariant : StepInvariant State.reset where
  memory := by decide
  display := by decide
  pixels := by simp [State.reset]
  pcRange := by decide
  returnAddresses := by decide
  suspended := by simp [State.reset]
  diagnostic := by simp [State.reset]

theorem witness_EveryStepKeepsTheInvariant : StepInvariant State.reset ∧ ∃ t, step State.reset = .next t :=
  ⟨reset_meets_invariant, _, rfl⟩

theorem witness_NoStepChangesTheParameters : ∃ t, step State.reset = .next t := ⟨_, rfl⟩

theorem witness_TraceAndBeepsFeedNothingBack : ∃ t, step (at_ 0x6AFF State.reset) = .next t := ⟨_, rfl⟩

theorem witness_DeadStackEntriesAreUnobservable :
    (∀ j : Fin 16, j.val < ({ State.reset with sp := 1 } : State).sp.val →
      (State.reset.stack.set 3 0x0ABC)[j] = State.reset.stack[j]) ∧
    ∃ t, step { State.reset with sp := 1 } = .next t := ⟨by decide, _, rfl⟩

theorem witness_SubroutineRoundTrip :
    let s := withBytes 0x300 [0x00, 0xEE] (at_ 0x2300 { State.reset with sp := 15 })
    s.status = .running ∧ s.inbox = [] ∧ s.sp.val < 16 ∧ s.pc.toNat + 1 < 4096 ∧ (0x300 : BitVec 12).toNat + 1 < 4096 ∧
    decodeBytes [s.readByte s.pc.toNat, s.readByte (s.pc.toNat + 1)] = .ok (.jsr 0x300, []) ∧
    decodeBytes [s.readByte (0x300 : BitVec 12).toNat, s.readByte ((0x300 : BitVec 12).toNat + 1)] = .ok (.rts, []) := by
  decide

/-- The last 16 bytes of memory as a sprite, its first row 0x80: the first draw turns on a pixel that was off. -/
theorem witness_SpriteDrawnTwiceRestoresTheDisplay :
    let s := withBytes 4080 [0x80] { State.reset with i := 4080, fb := [⟨5, 5⟩] }
    (0 : Reg) ≠ 15 ∧ (14 : Reg) ≠ 15 ∧ fbWf s.fb ∧
    s.i.toNat + (if (0 : BitVec 4) = 0 then 16 else (0 : BitVec 4).toNat) ≤ 4096 ∧
    ∃ t, exec (.sprite 0 14 0) s = .next t ∧ ∃ p, p ∈ t.fb ∧ p ∉ s.fb :=
  ⟨by decide, by decide, by decide, by decide, _, rfl, ⟨0, 0⟩, by decide, by decide⟩

theorem witness_StoredBytesAreTheNextFetch :
    let s := { State.reset with i := 4094 }
    0 + 1 ≤ (1 : Reg).val ∧ Memory.wf s.mem ∧ s.i.toNat + (1 : Reg).val ≤ 4095 ∧ (4094 : Word).toNat = s.i.toNat + 0 := by
  decide

theorem witness_JsrPushesTheReturnAddressAndJumps :
    ({ State.reset with sp := 15 } : State).sp.val < 16 ∧ ({ State.reset with sp := 16 } : State).sp.val = 16 := by decide

theorem witness_RtsPopsTheReturnAddress :
    0 < ({ State.reset with sp := 1 } : State).sp.val ∧ State.reset.sp.val = 0 := by decide

theorem witness_LogicInstructionsWorkBitwise : 7 < 8 := by decide

theorem witness_AddRegistersSetsCarry : (14 : Reg) ≠ 15 := by decide

theorem witness_SubtractionsSetNotBorrow : (14 : Reg) ≠ 15 := by decide

theorem witness_ShiftsMoveOneBitIntoTheFlag : (14 : Reg) ≠ 15 := by decide

theorem witness_RandStoresAMaskedDraw : (0x0F : Byte).getLsbD 4 = false := by decide

theorem witness_BcdStoresTheDecimalDigits :
    (let s := { State.reset with i := 4093 }
     Memory.wf s.mem ∧ s.i.toNat + 2 ≤ 4095) ∧ 4095 < ({ State.reset with i := 4094 } : State).i.toNat + 2 := by decide

theorem witness_StrStoresTheRegisters :
    (let s := { State.reset with i := 4080 }
     Memory.wf s.mem ∧ s.i.toNat + (15 : Reg).val ≤ 4095 ∧ (15 : Reg) ≤ 15) ∧
    4095 < ({ State.reset with i := 4081 } : State).i.toNat + (15 : Reg).val := by decide

theorem witness_LdrLoadsTheRegisters :
    (({ State.reset with i := 4095 } : State).i.toNat + (0 : Reg).val ≤ 4095 ∧ (0 : Reg) ≤ 0) ∧
    4095 < ({ State.reset with i := 4096 } : State).i.toNat + (0 : Reg).val := by decide

/-- 16 rows end at 4095 and past it; a covered pixel that is on, one that is off, and one that is not covered. -/
theorem witness_SpriteTogglesItsPixelsAndReportsCollision :
    (16 = (if (0 : BitVec 4) = 0 then 16 else (0 : BitVec 4).toNat) ∧
      ({ State.reset with i := 4080 } : State).i.toNat + 16 - 1 ≤ 4095 ∧
      4095 < ({ State.reset with i := 4081 } : State).i.toNat + 16 - 1) ∧
    (let s := { State.reset with fb := [⟨1, 0⟩] }
     SpriteCovers 0 1 1 s ⟨1, 0⟩ ∧ ⟨1, 0⟩ ∈ s.fb ∧ ¬ SpriteCovers 0 1 1 s ⟨1, 1⟩) ∧
    (∀ p, SpriteCovers 0 1 1 State.reset p → p ∉ State.reset.fb) := by
  refine ⟨by decide, ⟨⟨0, 1, by decide, by decide, by decide, rfl⟩, by decide, ?_⟩, ?_⟩
  · rintro ⟨r, c, hr, _, _, hn⟩
    simp [normPixel, State.reset, Config.Params.default, State.getV] at hn
    omega
  · intro p _
    simp [State.reset]

theorem witness_KeySkipsFollowThePoll :
    (withV [(4, 15)] State.reset).getV 4 = 15 ∧ ((withV [(4, 15)] State.reset).getV 4).toNat ≤ 15 ∧
    15 < ((withV [(4, 16)] State.reset).getV 4).toNat := by decide

theorem witness_KeyWaitsUntilAKeyIsResolved :
    (let s := { State.reset with status := .waiting 3, inbox := [.keyResolved 0xB], cyc := 4, st := 1 }
     s.status = .waiting 3 ∧ s.inbox.head? = some (.keyResolved 0xB) ∧ s.params.timerMode = .divided) ∧
    (let s := { State.reset with status := .waiting 15, inbox := [.keyResolved 0], params := ⟨.external, .store, []⟩ }
     s.status = .waiting 15 ∧ s.inbox.head? = some (.keyResolved 0) ∧ s.params.timerMode = .external) := by decide

end Sys2Proof.Tests
end

section
/-! SUPPORT. The two statements of 00_scope.md about every step, each proved along the layers of a step: the handler's
outcome, the opcode, the cycle, the event of the host. -/

namespace Sys2Proof.Machine

/-! ## What answers a next state (00_scope.md R8) -/

/-- After a handler that answered, the cycle goes on to report and divider or ends; both are next states. -/
theorem afterHandler_answers (ia : Word) (i : Instr) (t : State) : ∃ u, afterHandler ia i (.next t) = .next u := by
  by_cases h : t.status = .running
  · exact ⟨_, afterHandler_running h⟩
  · exact ⟨_, afterHandler_idle h⟩

/-- An invalid opcode halts or is skipped, so every opcode answers (30_encoding.md R77, R78). -/
theorem runOpcode_answers (ia op : Word) (s : State) : ∃ t, runOpcode ia op s = .next t := by
  unfold runOpcode
  cases decodeWord op with
  | ok i =>
    obtain ⟨u, hu⟩ := exec_answers i s
    simpa only [hu] using afterHandler_answers ia i u
  | error e => dsimp only; split <;> exact ⟨_, rfl⟩

theorem runCycle_answers (s : State) : ∃ t, runCycle s = .next t := by
  unfold runCycle
  cases fetch s with
  | none => exact ⟨_, rfl⟩
  | some op => exact runOpcode_answers s.pc op s.advancePc

theorem cycleEvent_answers (s : State) : ∃ t, cycleEvent s = .next t := by
  by_cases h : s.status = .running
  · rw [cycleEvent_running h]; exact runCycle_answers s
  · exact ⟨s, cycleEvent_idle h⟩

/-- Every event answers, but for a `Reset` with too long an image (70_reset_and_hazards.md R252). -/
theorem hostEvent_answers_or_refuses (e : HostEvent) (s : State) :
    (∃ t, hostEvent e s = .next t) ∨
    ∃ rom, e = .reset rom ∧ 3584 < rom.length ∧ hostEvent e s = .refused (.romTooLong rom.length) := by
  cases e with
  | reset rom =>
    rcases Nat.lt_or_ge 3584 rom.length with long | fits
    · exact .inr ⟨rom, rfl, long, applyReset_tooLong long s⟩
    · exact .inl ⟨_, applyReset_fits fits s⟩
  | cycle => exact .inl (cycleEvent_answers s)
  | tick => exact .inl ⟨_, rfl⟩
  | keyResolved k => exact .inl ⟨_, rfl⟩

/-! ## What keeps the parameters (00_scope.md R4) -/

/-- Each way a running cycle can end keeps the parameters. -/
theorem runCycle_params {s t : State} (h : runCycle s = .next t) : t.params = s.params := by
  rcases runCycle_eq_next h with rfl | ⟨op, -, rfl | rfl | ⟨i, u, -, hu, hend⟩⟩
  · rfl
  · rfl
  · simp
  · obtain ⟨hparams, -, -⟩ := exec_untouched hu
    rcases hend with ⟨-, rfl⟩ | ⟨-, rfl⟩ <;> simp [hparams]

theorem cycleEvent_params {s t : State} (h : cycleEvent s = .next t) : t.params = s.params := by
  by_cases hr : s.status = .running
  · exact runCycle_params (cycleEvent_running hr ▸ h)
  · rw [cycleEvent_idle hr] at h; cases h; rfl

@[simp] theorem tickEvent_params (s : State) : (tickEvent s).params = s.params := by
  unfold tickEvent; split <;> rfl

@[simp] theorem resolveKey_params (x : Reg) (k : BitVec 4) (s : State) : (resolveKey x k s).params = s.params := by
  simp [resolveKey]

@[simp] theorem keyEvent_params (k : BitVec 4) (s : State) : (keyEvent k s).params = s.params := by
  unfold keyEvent; split <;> simp

theorem applyReset_params {rom : List Byte} {s t : State} (h : applyReset rom s = .next t) : t.params = s.params := by
  rcases Nat.lt_or_ge 3584 rom.length with long | fits
  · rw [applyReset_tooLong long] at h; cases h
  · rw [applyReset_fits fits] at h; cases h; rfl

theorem hostEvent_params {e : HostEvent} {s t : State} (h : hostEvent e s = .next t) : t.params = s.params := by
  cases e with
  | reset rom => exact applyReset_params h
  | cycle => exact cycleEvent_params h
  | tick => cases h; exact tickEvent_params s
  | keyResolved k => cases h; exact keyEvent_params k s

/-- Settles O13, by cases on the event of the step: the default `Cycle`, or the oldest one delivered. -/
theorem stepAnswersExceptForALongImage : Obligations.StepAnswersExceptForALongImage := by
  intro s
  rcases step_cases s with ⟨-, hstep⟩ | ⟨e, rest, hinbox, hstep⟩ <;> rw [hstep]
  · exact .inl (cycleEvent_answers s)
  · rcases hostEvent_answers_or_refuses e s.eventTaken with answers | ⟨rom, rfl, long, refuses⟩
    · exact .inl answers
    · exact .inr ⟨rom, by rw [hinbox, List.head?_cons], long, refuses⟩

/-- Settles O32, by cases on the event of the step; taking the event leaves the parameters too. -/
theorem noStepChangesTheParameters : Obligations.NoStepChangesTheParameters := by
  intro s t h
  rcases step_cases s with ⟨-, hstep⟩ | ⟨e, rest, -, hstep⟩ <;> rw [hstep] at h
  · exact cycleEvent_params h
  · exact (hostEvent_params h).trans (eventTaken_params s)

end Sys2Proof.Machine
end

section
/-! SUPPORT. The mask rule of 30_encoding.md R72, read off the number of the top nibble. -/

namespace Sys2Proof

/-- The group compared as a number: the tests of `maskOf` speak of `G`, a statement may speak of the top nibble. -/
theorem fieldG_eq_iff_toNat (op : Word) (g : BitVec 4) : fieldG op = g ↔ op.toNat / 4096 = g.toNat := by
  rw [← BitVec.toNat_inj, toNat_fieldG]

/-- Settles O1: the groups 8, byte and plain are exactly the three cases of the top nibble. -/
theorem maskFollowsTheTopNibble : Obligations.MaskFollowsTheTopNibble := by
  intro op
  refine ⟨fun group8 => ?_, fun byte => ?_, fun plain => ?_⟩
  · exact maskOf_group8 ((fieldG_eq_iff_toNat op 0x8).mpr group8)
  · apply maskOf_byte
    simpa [byteGroup, fieldG_eq_iff_toNat, or_assoc] using byte
  · apply maskOf_plain
    simpa [plainGroup, fieldG_eq_iff_toNat, and_assoc] using plain

end Sys2Proof
end

section
/-! SUPPORT. The jump, the call and the return of 41_control_flow.md, with what these statements share with others: decoding
by the row of the key, the frame of a control transfer, and the halt of a handler. -/

namespace Sys2Proof

/-- Decoding looks up the row of the key and builds from the unmasked opcode (30_encoding.md R73). -/
theorem decodeWord_of_rowOfKey {op : Word} {r : TableRow} (row : rowOfKey (keyOf op) = some r) :
    decodeWord op = .ok (r.build op) := by
  rw [decodeWord, row]

theorem decodeWord_jmp (nnn : BitVec 12) : decodeWord (formatA 0x1 nnn) = .ok (.jmp nnn) := by
  have key : keyOf (formatA 0x1 nnn) = 0x1000 := Laws.EncodedKey.jmp nnn
  rw [decodeWord_of_rowOfKey (by rw [key]; rfl)]
  simp only [fieldNNN_formatA]

theorem decodeWord_jsr (nnn : BitVec 12) : decodeWord (formatA 0x2 nnn) = .ok (.jsr nnn) := by
  have key : keyOf (formatA 0x2 nnn) = 0x2000 := Laws.EncodedKey.jsr nnn
  rw [decodeWord_of_rowOfKey (by rw [key]; rfl)]
  simp only [fieldNNN_formatA]

/-- The mask of group 0 drops `X` (30_encoding.md R72, R76). -/
theorem decodeWord_rts (x : Reg) : decodeWord (formatXK 0x0 x 0xEE) = .ok .rts := by
  have key : keyOf (formatXK 0x0 x 0xEE) = 0x00EE := keyOf_formatXK_byte (by decide) x 0xEE
  rw [decodeWord_of_rowOfKey (by rw [key]; rfl)]

end Sys2Proof

namespace Sys2Proof.Machine

@[simp] theorem toNat_zextNNN (nnn : BitVec 12) : (zextNNN nnn).toNat = nnn.toNat :=
  BitVec.toNat_setWidth_of_le (by decide)

/-- A transfer of control writes `PC` only. -/
theorem frame_setPc (s : State) (target : Word) : Frame { pc := true } s { s with pc := target } := by
  constructor
  case pc => nofun
  case callStack => exact fun _ => ⟨rfl, rfl⟩
  all_goals (intros; rfl)

/-- A call or a return writes `PC`, `SP` and the stack only. -/
theorem frame_setPc_setStack (s : State) (target : Word) (sp : Fin 17) (stack : Vector Word 16) :
    Frame { pc := true, callStack := true } s { s with pc := target, sp := sp, stack := stack } := by
  constructor
  case pc | callStack => nofun
  all_goals (intros; rfl)

/-- A halt writes `STATUS` and the report only (60_exceptions.md R211). -/
theorem frame_raiseHalt (reason : HaltReason) (addr : Word) (s : State) :
    Frame { status := true, trace := true } s (raiseHalt reason addr s) := by
  constructor
  case status | trace => nofun
  case callStack => exact fun _ => ⟨rfl, rfl⟩
  all_goals (intros; rfl)

/-- A handler that raises its halt at `ia` halts as a statement asks. -/
theorem haltsWith_of_raiseHalt {reason : HaltReason} {i : Instr} {s : State}
    (h : exec i s = .next (raiseHalt reason s.ia s)) : HaltsWith reason i s :=
  ⟨_, h, rfl, rfl, frame_raiseHalt reason s.ia s⟩

/-! ## A call and a return answer by the depth of the stack (41_control_flow.md R121, R122) -/

theorem exec_jsr_of_room (nnn : BitVec 12) {s : State} (room : s.sp.val < 16) :
    exec (.jsr nnn) s = .next { s with
      pc := zextNNN nnn, sp := ⟨s.sp.val + 1, by omega⟩, stack := s.stack.set s.sp.val s.pc } := by
  obtain ⟨t, answer⟩ := exec_answers (.jsr nnn) s
  obtain ⟨_, rfl⟩ | ⟨full, -⟩ := execJsr_eq_next answer
  · exact answer
  · omega

theorem exec_jsr_of_full (nnn : BitVec 12) {s : State} (full : s.sp.val = 16) :
    exec (.jsr nnn) s = .next (raiseHalt .stackOverflow s.ia s) := by
  obtain ⟨t, answer⟩ := exec_answers (.jsr nnn) s
  obtain ⟨room, -⟩ | ⟨-, rfl⟩ := execJsr_eq_next answer
  · omega
  · exact answer

theorem exec_rts_of_live {s : State} (live : 0 < s.sp.val) :
    exec .rts s = .next { s with pc := s.stack[s.sp.val - 1], sp := ⟨s.sp.val - 1, by omega⟩ } := by
  obtain ⟨t, answer⟩ := exec_answers .rts s
  obtain ⟨_, rfl⟩ | ⟨empty, -⟩ := execRts_eq_next answer
  · exact answer
  · omega

theorem exec_rts_of_empty {s : State} (empty : s.sp.val = 0) :
    exec .rts s = .next (raiseHalt .stackUnderflow s.ia s) := by
  obtain ⟨t, answer⟩ := exec_answers .rts s
  obtain ⟨live, -⟩ | ⟨-, rfl⟩ := execRts_eq_next answer
  · omega
  · exact answer

/-- Settles O38: the handler writes the zero-extended target into `PC`. -/
theorem jmpGoesToItsAddress : Obligations.JmpGoesToItsAddress :=
  ⟨decodeWord_jmp, fun nnn s => ⟨_, rfl, toNat_zextNNN nnn, frame_setPc s (zextNNN nnn)⟩⟩

/-- Settles O39: with room the entry at `SP` alone is written; a full stack halts before any effect. -/
theorem jsrPushesTheReturnAddressAndJumps : Obligations.JsrPushesTheReturnAddressAndJumps := by
  refine ⟨decodeWord_jsr, fun nnn s room => ?_, fun nnn s full => haltsWith_of_raiseHalt (exec_jsr_of_full nnn full)⟩
  have pushed : (s.stack.set s.sp.val s.pc)[s.sp.val] = s.pc := Vector.getElem_set_self room
  have others (j : Fin 16) (other : j.val ≠ s.sp.val) : (s.stack.set s.sp.val s.pc)[j] = s.stack[j] :=
    Vector.getElem_set_ne room j.isLt other.symm
  exact ⟨_, exec_jsr_of_room nnn room, pushed, others, rfl, toNat_zextNNN nnn, frame_setPc_setStack s _ _ _⟩

/-- Settles O40: with a live entry `PC` takes it and the stack keeps it; an empty stack halts before any effect. -/
theorem rtsPopsTheReturnAddress : Obligations.RtsPopsTheReturnAddress :=
  ⟨fun ign => decodeWord_rts ign.toFin,
    fun s live => ⟨_, exec_rts_of_live live, rfl, rfl, rfl, frame_setPc_setStack s _ _ s.stack⟩,
    fun _ empty => haltsWith_of_raiseHalt (exec_rts_of_empty empty)⟩

end Sys2Proof.Machine
end

section
/-! SUPPORT. The register load, arithmetic and logic instructions of 42_alu.md R140 to R147 and R149: decoding with two
operand fields, the frames of a plain and of a flagged result, and the flags as numbers. -/

namespace Sys2Proof

/-- A row of group 8 gets its operands from `X` and `Y`; `N` selects the row (30_encoding.md R72, R75). -/
theorem decodeWord_group8 (build : Reg → Reg → Instr) {n : BitVec 4} {name : String} {key mask : Word}
    (row : rowOfKey (formatXYN 0x8 0 0 n) = some ⟨name, key, mask, fun op => build (fieldX op) (fieldY op)⟩)
    (x y : Reg) : decodeWord (formatXYN 0x8 x y n) = .ok (build x y) := by
  rw [← keyOf_formatXYN_group8 x y n] at row
  simp only [decodeWord_of_rowOfKey row, fieldX_formatXYN, fieldY_formatXYN]

/-- A row of a plain group with operands `X` and `NN` is selected by the group alone (30_encoding.md R72, R75). -/
theorem decodeWord_plainXK (build : Reg → Byte → Instr) {g : BitVec 4} {name : String} {key mask : Word}
    (plain : plainGroup g = true)
    (row : rowOfKey (formatXK g 0 0) = some ⟨name, key, mask, fun op => build (fieldX op) (fieldNN op)⟩)
    (x : Reg) (nn : Byte) : decodeWord (formatXK g x nn) = .ok (build x nn) := by
  rw [← keyOf_formatXK_plain plain x nn] at row
  simp only [decodeWord_of_rowOfKey row, fieldX_formatXK, fieldNN_formatXK]

end Sys2Proof

namespace Sys2Proof.Machine

/-! ## Flags and differences as numbers -/

@[simp] theorem toNat_flagByte (c : Bool) : (flagByte c).toNat = c.toNat := by cases c <;> rfl

theorem toNat_carryOf (a b : Byte) : (carryOf a b).toNat = if a.toNat + b.toNat > 255 then 1 else 0 :=
  Bool.cond_decide _ _ _

theorem toNat_notBorrow (a b : Byte) : (notBorrow a b).toNat = if a.toNat ≥ b.toNat then 1 else 0 :=
  Bool.cond_decide _ _ _

/-- The difference modulo 256, with the minuend raised by 256 so that it is no smaller than the subtrahend. -/
theorem toNat_sub_byte (a b : Byte) : (a - b).toNat = (a.toNat + 256 - b.toNat) % 256 := by
  have small := b.isLt
  rw [BitVec.toNat_sub]
  congr 1
  omega

/-! ## What a result leaves unchanged (42_alu.md R153, R154) -/

theorem frame_setV (s : State) (x : Reg) (b : Byte) : Frame { regs := [x] } s (s.setV x b) := by
  constructor
  case regs => exact fun r unlisted => getV_setV_other s x r b (List.ne_of_not_mem_cons unlisted)
  case callStack => exact fun _ => ⟨rfl, rfl⟩
  all_goals (intros; rfl)

theorem frame_writeWithFlag (x : Reg) (b : Byte) (c : Bool) (s : State) :
    Frame { regs := [x, 15] } s (writeWithFlag x b c s) := by
  constructor
  case regs =>
    intro r unlisted
    obtain ⟨notX, notFlag⟩ := List.ne_and_not_mem_of_not_mem_cons unlisted
    exact getV_writeWithFlag_other x r b c s notX (List.ne_of_not_mem_cons notFlag)
  case callStack => exact fun _ => ⟨rfl, rfl⟩
  all_goals (intros; rfl)

/-- A handler that writes a result and then a flag, with both as the numbers a statement gives: the result stands unless
`X` is VF, the flag stands always (42_alu.md R153). -/
theorem answers_result_and_flag {i : Instr} {x : Reg} {b : Byte} {c : Bool} {s : State} {result flag : Nat}
    (answer : exec i s = .next (writeWithFlag x b c s)) (hresult : b.toNat = result) (hflag : c.toNat = flag) :
    ∃ t, exec i s = .next t ∧ (x ≠ 15 → (t.getV x).toNat = result) ∧ (t.getV 15).toNat = flag ∧
      Frame { regs := [x, 15] } s t := by
  refine ⟨_, answer, fun notVF => ?_, ?_, frame_writeWithFlag x b c s⟩
  · rw [getV_writeWithFlag_dest x b c s notVF, hresult]
  · calc ((writeWithFlag x b c s).getV VF).toNat
      _ = c.toNat := by rw [getV_writeWithFlag_VF, toNat_flagByte]
      _ = flag := hflag

/-! ## The statements -/

/-- Settles O46: the byte sum wraps, and the carry, written after it, is what VF ends as. -/
theorem addRegistersSetsCarry : Obligations.AddRegistersSetsCarry :=
  ⟨decodeWord_group8 .addReg rfl,
    fun _ _ _ => answers_result_and_flag rfl (BitVec.toNat_add _ _) (toNat_carryOf _ _)⟩

/-- Settles O47: `sub` and `rsb` differ in which operand is the minuend; not-borrow is what VF ends as. -/
theorem subtractionsSetNotBorrow : Obligations.SubtractionsSetNotBorrow := by
  refine ⟨fun x y => ⟨decodeWord_group8 .subReg rfl x y, decodeWord_group8 .rsbReg rfl x y⟩,
    fun x y s => ⟨?sub, ?rsb⟩⟩
  case sub => exact answers_result_and_flag rfl (toNat_sub_byte (s.getV x) (s.getV y)) (toNat_notBorrow _ _)
  case rsb => exact answers_result_and_flag rfl (toNat_sub_byte (s.getV y) (s.getV x)) (toNat_notBorrow _ _)

/-- Settles O43: both forms are one register write. -/
theorem movLoadsTheRegister : Obligations.MovLoadsTheRegister :=
  ⟨decodeWord_plainXK .movImm (by decide) rfl, decodeWord_group8 .movReg rfl,
    fun x nn s => ⟨_, rfl, getV_setV_same s x nn, frame_setV s x nn⟩,
    fun x y s => ⟨_, rfl, getV_setV_same s x (s.getV y), frame_setV s x (s.getV y)⟩⟩

/-- Settles O44: one register write of the byte sum. -/
theorem addConstantWrapsAndSetsNoFlag : Obligations.AddConstantWrapsAndSetsNoFlag := by
  refine ⟨decodeWord_plainXK .addImm (by decide) rfl, fun x nn s => ⟨_, rfl, ?_, frame_setV s x _⟩⟩
  rw [getV_setV_same]
  exact BitVec.toNat_add _ _

/-- Settles O45: one register write of the byte operation, which acts on each bit. -/
theorem logicInstructionsWorkBitwise : Obligations.LogicInstructionsWorkBitwise := by
  refine ⟨fun x y => ⟨decodeWord_group8 .orReg rfl x y, decodeWord_group8 .andReg rfl x y,
    decodeWord_group8 .xorReg rfl x y⟩, fun x y s => ⟨⟨_, rfl, frame_setV s x _, fun j _ => ?or⟩,
    ⟨_, rfl, frame_setV s x _, fun j _ => ?and⟩, ⟨_, rfl, frame_setV s x _, fun j _ => ?xor⟩⟩⟩
  all_goals rw [getV_setV_same]
  case or => exact BitVec.getLsbD_or
  case and => exact BitVec.getLsbD_and
  case xor => exact BitVec.getLsbD_xor

end Sys2Proof.Machine
end

section
/-! SUPPORT. The index load and the memory transfers of 43_index_memory.md R160, R163 to R165: decoding by the low byte,
what a store and a load through `I` answer inside memory and past it, and their frames. -/

namespace Sys2Proof

/-- A row of a plain group with operand `NNN` is selected by the group alone (30_encoding.md R72, R75). -/
theorem decodeWord_plainA (build : BitVec 12 → Instr) {g : BitVec 4} {name : String} {key mask : Word}
    (plain : plainGroup g = true)
    (row : rowOfKey (formatA g 0) = some ⟨name, key, mask, fun op => build (fieldNNN op)⟩)
    (nnn : BitVec 12) : decodeWord (formatA g nnn) = .ok (build nnn) := by
  rw [← keyOf_formatA plain nnn] at row
  simp only [decodeWord_of_rowOfKey row, fieldNNN_formatA]

/-- A row of a byte group with operand `X` is selected by the group and the low byte (30_encoding.md R72, R75). -/
theorem decodeWord_byteX (build : Reg → Instr) {g : BitVec 4} {sub : Byte} {name : String} {key mask : Word}
    (byte : byteGroup g = true)
    (row : rowOfKey (formatXK g 0 sub) = some ⟨name, key, mask, fun op => build (fieldX op)⟩)
    (x : Reg) : decodeWord (formatXK g x sub) = .ok (build x) := by
  rw [← keyOf_formatXK_byte byte x sub] at row
  simp only [decodeWord_of_rowOfKey row, fieldX_formatXK]

end Sys2Proof

namespace Sys2Proof.Machine

/-! ## What a write of `I`, of a run of bytes and of a block of registers leaves unchanged -/

theorem frame_setIndex (s : State) (w : Word) : Frame { index := true } s { s with i := w } := by
  constructor
  case index => nofun
  case callStack => exact fun _ => ⟨rfl, rfl⟩
  all_goals (intros; rfl)

/-- A run of writes inside memory changes the bytes of its range only (20_memory.md R55, R60). -/
theorem frame_writeBytes {s : State} (canonical : Memory.wf s.mem) {a : Nat} {bs : List Byte}
    (inside : a + bs.length ≤ 4096) :
    Frame { memBase := a, memLen := bs.length } s { s with mem := Memory.writeBytes s.mem a bs } := by
  constructor
  case memory =>
    intro c (outOfRange : ¬(a ≤ c ∧ c < a + bs.length))
    exact (Memory.read_writeBytes canonical inside c).trans (dif_neg (by omega))
  case callStack => exact fun _ => ⟨rfl, rfl⟩
  all_goals (intros; rfl)

/-- Loading `X + 1` bytes from `V[0]` up changes no register above `X` (43_index_memory.md R165). -/
theorem frame_loadRegs (s : State) (x : Reg) {bs : List Byte} (length : bs.length = x.val + 1) :
    Frame { regs := (List.finRange 16).filter (fun j => j ≤ x) } s (s.loadRegs 0 bs) := by
  constructor
  case regs =>
    intro r unlisted
    have above : x.val < r.val := by simpa using unlisted
    rw [getV_loadRegs, dif_neg (by omega)]
  case memory => exact fun a _ => congrArg (Memory.read · a) (loadRegs_mem s 0 bs)
  case callStack => exact fun _ => ⟨loadRegs_sp s 0 bs, loadRegs_stack s 0 bs⟩
  all_goals simp

/-! ## A transfer through `I` answers by its range (20_memory.md R58, 43_index_memory.md R166) -/

/-- A handler that stores `bs` inside memory puts byte `j` at `I + j`. -/
theorem answers_store_inside {i : Instr} {s : State} {bs : List Byte}
    (handler : exec i s = orHalt .dataRange s (memWrite s s.indexAddr bs))
    (canonical : Memory.wf s.mem) (inside : s.i.toNat + bs.length ≤ 4096) :
    ∃ t, exec i s = .next t ∧ (∀ (j : Nat) (h : j < bs.length), t.readByte (s.i.toNat + j) = bs[j]) ∧
      Frame { memBase := s.i.toNat, memLen := bs.length } s t := by
  refine ⟨{ s with mem := Memory.writeBytes s.mem s.i.toNat bs }, ?_, fun j h => ?_,
    frame_writeBytes canonical inside⟩
  · rw [handler, memWrite_inside (a := s.indexAddr) inside]
    rfl
  · calc Memory.read (Memory.writeBytes s.mem s.i.toNat bs) (s.i.toNat + j)
      _ = bs[s.i.toNat + j - s.i.toNat] :=
        (Memory.read_writeBytes canonical inside _).trans (dif_pos (by omega))
      _ = bs[j] := by simp only [Nat.add_sub_cancel_left]

theorem haltsWith_of_store_outside {i : Instr} {s : State} {bs : List Byte}
    (handler : exec i s = orHalt .dataRange s (memWrite s s.indexAddr bs))
    (outside : 4096 < s.i.toNat + bs.length) : HaltsWith .dataRange i s :=
  haltsWith_of_raiseHalt (by rw [handler, memWrite_outside (a := s.indexAddr) outside, orHalt_none])

theorem exec_load_inside {i : Instr} {s : State} {n : Nat} {f : List Byte → State}
    (handler : exec i s = orHalt .dataRange s ((memRead s s.indexAddr n).map f))
    (inside : s.i.toNat + n ≤ 4096) : exec i s = .next (f (Memory.readBytes s.mem s.i.toNat n)) := by
  rw [handler, memRead_inside (a := s.indexAddr) inside]
  rfl

theorem haltsWith_of_load_outside {i : Instr} {s : State} {n : Nat} {f : List Byte → State}
    (handler : exec i s = orHalt .dataRange s ((memRead s s.indexAddr n).map f))
    (outside : 4096 < s.i.toNat + n) : HaltsWith .dataRange i s :=
  haltsWith_of_raiseHalt (by
    rw [handler, memRead_outside (a := s.indexAddr) outside, Option.map_none, orHalt_none])

/-- After a block load each register up to `X` holds the byte at `I` plus its number (43_index_memory.md R165). -/
theorem getV_loadRegs_readBytes (s : State) (a : Nat) {x j : Reg} (listed : j.val ≤ x.val) :
    (s.loadRegs 0 (Memory.readBytes s.mem a (x.val + 1))).getV j = s.readByte (a + j.val) := by
  have inBlock : 0 ≤ j.val ∧ j.val - 0 < (Memory.readBytes s.mem a (x.val + 1)).length := by
    rw [Memory.length_readBytes]
    omega
  rw [getV_loadRegs, dif_pos inBlock]
  exact Memory.getElem_readBytes s.mem a (x.val + 1) j.val _

/-- Each digit of a byte fits the byte it is stored in (43_index_memory.md R163). -/
theorem toNat_decimalDigits (b : Byte) :
    (decimalDigits b)[0].toNat = b.toNat / 100 ∧ (decimalDigits b)[1].toNat = b.toNat / 10 % 10 ∧
      (decimalDigits b)[2].toNat = b.toNat % 10 := by
  have small := b.isLt
  refine ⟨Nat.mod_eq_of_lt ?_, Nat.mod_eq_of_lt ?_, Nat.mod_eq_of_lt ?_⟩ <;> omega

/-! ## The statements -/

/-- Settles O50: the handler writes the zero-extended address into `I`. -/
theorem mviLoadsTheIndex : Obligations.MviLoadsTheIndex :=
  ⟨decodeWord_plainA .mvi (by decide) rfl,
    fun nnn s => ⟨_, rfl, toNat_zextNNN nnn, frame_setIndex s (zextNNN nnn)⟩⟩

/-- Settles O53: the store of the three digits, inside memory or past it. -/
theorem bcdStoresTheDecimalDigits : Obligations.BcdStoresTheDecimalDigits := by
  refine ⟨decodeWord_byteX .bcd (by decide) rfl, fun x s canonical inside => ?_,
    fun x s outside => haltsWith_of_store_outside rfl (Nat.succ_lt_succ outside)⟩
  obtain ⟨t, answer, stored, frame⟩ := answers_store_inside (i := .bcd x) rfl canonical (Nat.succ_le_succ inside)
  obtain ⟨hundreds, tens, ones⟩ := toNat_decimalDigits (s.getV x)
  have digit (j : Nat) (h : j < 3) := congrArg BitVec.toNat (stored j h)
  exact ⟨t, answer, (digit 0 (by decide)).trans hundreds, (digit 1 (by decide)).trans tens,
    (digit 2 (by decide)).trans ones, frame⟩

/-- Settles O54: the store of the block `V[0]` to `V[X]`, inside memory or past it. -/
theorem strStoresTheRegisters : Obligations.StrStoresTheRegisters := by
  refine ⟨decodeWord_byteX .str (by decide) rfl, fun x s canonical inside => ?_,
    fun x s outside => haltsWith_of_store_outside rfl (by rw [length_regsUpTo]; omega)⟩
  obtain ⟨t, answer, stored, frame⟩ :=
    answers_store_inside (i := .str x) (s := s) rfl canonical (by rw [length_regsUpTo]; omega)
  rw [length_regsUpTo] at frame
  refine ⟨t, answer, fun j (listed : j.val ≤ x.val) => ?_, frame⟩
  have inBlock : j.val < (s.regsUpTo x).length := by rw [length_regsUpTo]; omega
  rw [stored j.val inBlock, getElem_regsUpTo]

/-- Settles O55: the load of the block `V[0]` to `V[X]`, inside memory or past it. -/
theorem ldrLoadsTheRegisters : Obligations.LdrLoadsTheRegisters :=
  ⟨decodeWord_byteX .ldr (by decide) rfl,
    fun x s inside => ⟨_, exec_load_inside rfl (Nat.succ_le_succ inside),
      fun _ listed => getV_loadRegs_readBytes s s.i.toNat listed, frame_loadRegs s x (Memory.length_readBytes _ _ _)⟩,
    fun x s outside => haltsWith_of_load_outside rfl (Nat.succ_lt_succ outside)⟩

end Sys2Proof.Machine
end

section
/-! SUPPORT. The clear of 44_display.md R181: its decoding, and what a write of the display leaves unchanged. -/

namespace Sys2Proof

/-- `cls` ignores bits 11:8, the operand `X` of its group's format (30_encoding.md R76). -/
theorem decodeWord_cls (x : Reg) : decodeWord (formatXK 0x0 x 0xE0) = .ok .cls :=
  decodeWord_byteX (fun _ => .cls) (by decide) rfl x

end Sys2Proof

namespace Sys2Proof.Machine

/-- A write of `FB` leaves the registers, `V[15]` among them, and everything else unchanged (20_memory.md R65). -/
theorem frame_setDisplay (s : State) (pixels : List Pixel) : Frame { display := true } s { s with fb := pixels } := by
  constructor
  case display => nofun
  case callStack => exact fun _ => ⟨rfl, rfl⟩
  all_goals (intros; rfl)

/-- Settles O56: the handler writes the empty display. -/
theorem clsClearsTheDisplay : Obligations.ClsClearsTheDisplay :=
  ⟨fun ign => decodeWord_cls ign.toFin,
    fun s => ⟨_, rfl, fun _ => List.not_mem_nil, frame_setDisplay s []⟩⟩

end Sys2Proof.Machine
end

section
/-! SUPPORT. The audio pulse of 60_exceptions.md R222: when a tick adds one, and that no handler does. -/

namespace Sys2Proof.Machine

/-! ## The pulse of a tick (60_exceptions.md R221, R222) -/

/-- The tick that takes `ST` from 1 to 0 is the one that adds a pulse. -/
theorem tick_of_st_one {s : State} (one : s.st.toNat = 1) : (tick s).beeps = s.beeps + 1 ∧ (tick s).st = 0 := by
  have last : s.st = 1 := BitVec.eq_of_toNat_eq one
  exact ⟨by rw [tick_beeps, if_pos last], by rw [tick_st, last]; rfl⟩

theorem tick_beeps_of_st_ne_one {s : State} (other : s.st.toNat ≠ 1) : (tick s).beeps = s.beeps := by
  have notLast : s.st ≠ 1 := fun last => other (congrArg BitVec.toNat last)
  rw [tick_beeps, if_neg notLast]

/-! ## No handler gives a pulse -/

/-- The handlers that may halt are read off by what they can answer; each of the others writes a field other than
`BEEPS`. -/
theorem exec_beeps {i : Instr} {s t : State} (h : exec i s = .next t) : t.beeps = s.beeps := by
  cases i
  case jsr nnn => rcases execJsr_eq_next h with ⟨_, rfl⟩ | ⟨_, rfl⟩ <;> rfl
  case rts => rcases execRts_eq_next h with ⟨_, rfl⟩ | ⟨_, rfl⟩ <;> rfl
  case bcd x => rcases store_eq_next h with ⟨_, rfl⟩ | ⟨_, rfl⟩ <;> rfl
  case str x => rcases store_eq_next h with ⟨_, rfl⟩ | ⟨_, rfl⟩ <;> rfl
  case ldr x =>
    rcases load_eq_next h with ⟨_, rfl⟩ | ⟨_, rfl⟩
    · exact loadRegs_beeps s 0 _
    · rfl
  case sprite x y n => rcases load_eq_next h with ⟨_, rfl⟩ | ⟨_, rfl⟩ <;> rfl
  all_goals (cases h; rfl)

/-- Settles O20, by the two cases of a tick and the frame of the handlers. -/
theorem onePulsePerSoundTimerExpiry : Obligations.OnePulsePerSoundTimerExpiry :=
  ⟨fun _ => ⟨tick_of_st_one, tick_beeps_of_st_ne_one⟩, fun _ _ _ => exec_beeps⟩

end Sys2Proof.Machine
end

section
/-! SUPPORT. Decoding and encoding are inverse up to the ignored bits (30_encoding.md R73 to R77): which row an opcode
selects, what each row builds, and which opcodes select none. -/

namespace Sys2Proof

/-! ## Decoding the formats that carry `X` and `Y` (30_encoding.md R74) -/

/-- A row of a plain group with operands `X`, `Y` and `N` is selected by the group alone (30_encoding.md R72, R75). -/
theorem decodeWord_plainXYN (build : Reg → Reg → BitVec 4 → Instr) {g : BitVec 4} {name : String} {key mask : Word}
    (plain : plainGroup g = true)
    (row : rowOfKey (formatXYN g 0 0 0) =
      some ⟨name, key, mask, fun op => build (fieldX op) (fieldY op) (fieldN op)⟩)
    (x y : Reg) (n : BitVec 4) : decodeWord (formatXYN g x y n) = .ok (build x y n) := by
  rw [← keyOf_formatXYN_plain plain x y n] at row
  simp only [decodeWord_of_rowOfKey row, fieldX_formatXYN, fieldY_formatXYN, fieldN_formatXYN]

/-- `skeq VX,VY` and `skne VX,VY` ignore the low nibble (30_encoding.md R76, decision D4). -/
theorem decodeWord_skeqReg (x y : Reg) (ign : BitVec 4) : decodeWord (formatXYN 0x5 x y ign) = .ok (.skeqReg x y) :=
  decodeWord_plainXYN (fun x y _ => .skeqReg x y) (by decide) rfl x y ign

theorem decodeWord_skneReg (x y : Reg) (ign : BitVec 4) : decodeWord (formatXYN 0x9 x y ign) = .ok (.skneReg x y) :=
  decodeWord_plainXYN (fun x y _ => .skneReg x y) (by decide) rfl x y ign

/-- The shifts ignore `Y` (30_encoding.md R76, decision D7). -/
theorem decodeWord_shr (x ign : Reg) : decodeWord (formatXYN 0x8 x ign 0x6) = .ok (.shr x) :=
  decodeWord_group8 (fun x _ => .shr x) rfl x ign

theorem decodeWord_shl (x ign : Reg) : decodeWord (formatXYN 0x8 x ign 0xE) = .ok (.shl x) :=
  decodeWord_group8 (fun x _ => .shl x) rfl x ign

/-- The encoding of an instruction selects the row of its constructor, whose fields are the operands. -/
theorem decodeWord_encode (i : Instr) : decodeWord (encode i) = .ok i := by
  cases i with
  | cls => exact decodeWord_cls 0
  | rts => exact decodeWord_rts 0
  | jmp nnn => exact decodeWord_jmp nnn
  | jsr nnn => exact decodeWord_jsr nnn
  | skeqImm x nn => exact decodeWord_plainXK .skeqImm (by decide) rfl x nn
  | skneImm x nn => exact decodeWord_plainXK .skneImm (by decide) rfl x nn
  | skeqReg x y => exact decodeWord_skeqReg x y 0
  | movImm x nn => exact decodeWord_plainXK .movImm (by decide) rfl x nn
  | addImm x nn => exact decodeWord_plainXK .addImm (by decide) rfl x nn
  | movReg x y => exact decodeWord_group8 .movReg rfl x y
  | orReg x y => exact decodeWord_group8 .orReg rfl x y
  | andReg x y => exact decodeWord_group8 .andReg rfl x y
  | xorReg x y => exact decodeWord_group8 .xorReg rfl x y
  | addReg x y => exact decodeWord_group8 .addReg rfl x y
  | subReg x y => exact decodeWord_group8 .subReg rfl x y
  | shr x => exact decodeWord_shr x 0
  | rsbReg x y => exact decodeWord_group8 .rsbReg rfl x y
  | shl x => exact decodeWord_shl x 0
  | skneReg x y => exact decodeWord_skneReg x y 0
  | mvi nnn => exact decodeWord_plainA .mvi (by decide) rfl nnn
  | jmi nnn => exact decodeWord_plainA .jmi (by decide) rfl nnn
  | rand x nn => exact decodeWord_plainXK .rand (by decide) rfl x nn
  | sprite x y n => exact decodeWord_plainXYN .sprite (by decide) rfl x y n
  | skpr x => exact decodeWord_byteX .skpr (by decide) rfl x
  | skup x => exact decodeWord_byteX .skup (by decide) rfl x
  | gdelay x => exact decodeWord_byteX .gdelay (by decide) rfl x
  | key x => exact decodeWord_byteX .key (by decide) rfl x
  | sdelay x => exact decodeWord_byteX .sdelay (by decide) rfl x
  | ssound x => exact decodeWord_byteX .ssound (by decide) rfl x
  | adi x => exact decodeWord_byteX .adi (by decide) rfl x
  | font x => exact decodeWord_byteX .font (by decide) rfl x
  | bcd x => exact decodeWord_byteX .bcd (by decide) rfl x
  | str x => exact decodeWord_byteX .str (by decide) rfl x
  | ldr x => exact decodeWord_byteX .ldr (by decide) rfl x

/-- Decoding bytes decodes the opcode of the first two and leaves the rest (20_memory.md R54). -/
theorem decodeBytes_cons_cons_eq_ok {hi lo : Byte} {bytes rest : List Byte} {i : Instr} :
    decodeBytes (hi :: lo :: bytes) = .ok (i, rest) ↔ decodeWord (opcodeOfBytes hi lo) = .ok i ∧ bytes = rest := by
  simp only [decodeBytes]
  cases decodeWord (opcodeOfBytes hi lo) <;> simp

/-- Settles O3: the opcode by the row of each constructor, the bytes by joining the two halves of the opcode. -/
theorem decodeOfEncodeIsTheInstruction : Obligations.DecodeOfEncodeIsTheInstruction := by
  refine ⟨decodeWord_encode, fun i rest => decodeBytes_cons_cons_eq_ok.mpr ⟨?_, rfl⟩⟩
  rw [opcodeOfBytes_high_low, decodeWord_encode]

/-! ## The row an opcode selects (30_encoding.md R72, R73) -/

theorem fieldG_and (a b : Word) : fieldG (a &&& b) = fieldG a &&& fieldG b := BitVec.extractLsb'_and

/-- Every mask keeps the group. -/
theorem fieldG_and_maskOf (op w : Word) : fieldG (op &&& maskOf w) = fieldG op := by
  have keepsGroup : fieldG (maskOf w) = BitVec.allOnes 4 := by
    unfold maskOf
    split
    · rfl
    · split <;> rfl
  rw [fieldG_and, keepsGroup, BitVec.and_allOnes]

/-- The mask depends on the group alone. -/
theorem maskOf_congr {a b : Word} (sameGroup : fieldG a = fieldG b) : maskOf a = maskOf b := by
  simp only [maskOf, sameGroup]

/-- The mask column of the table is the mask rule on the key column (30_encoding.md R72, R75). -/
theorem mask_of_mem_opcodeTable : ∀ r ∈ opcodeTable, r.mask = maskOf r.key := by decide

/-- No two rows have one key. -/
theorem opcodeTable_keys_nodup : (opcodeTable.map TableRow.key).Nodup := by decide

/-- The row of a key is the one row with that key. -/
theorem rowOfKey_eq_some_iff {key : Word} {r : TableRow} :
    rowOfKey key = some r ↔ r ∈ opcodeTable ∧ r.key = key := by
  have sound {q : TableRow} (found : rowOfKey key = some q) : q ∈ opcodeTable ∧ q.key = key :=
    ⟨List.mem_of_find?_eq_some found, by simpa using List.find?_some found⟩
  refine ⟨sound, fun ⟨listed, hkey⟩ => ?_⟩
  cases found : rowOfKey key with
  | none => exact absurd hkey (by simpa using List.find?_eq_none.mp found r listed)
  | some q =>
    obtain ⟨listed', hkey'⟩ := sound found
    rw [List.inj_on_of_nodup_map opcodeTable_keys_nodup listed' listed (hkey'.trans hkey.symm)]

/-- The lookup of R73 under the mask of R72 selects a row exactly if the opcode has the row's key under the row's own
mask: the group is inside every mask, so the two masks are one. -/
theorem rowOfKey_keyOf_eq_some_iff {op : Word} {r : TableRow} :
    rowOfKey (keyOf op) = some r ↔ r ∈ opcodeTable ∧ op &&& r.mask = r.key := by
  rw [rowOfKey_eq_some_iff]
  refine and_congr_right fun listed => ?_
  rw [mask_of_mem_opcodeTable r listed]
  constructor <;> intro h
  · rw [h, keyOf, maskOf_congr (fieldG_and_maskOf op op)]
  · rw [keyOf, maskOf_congr (a := op) (b := r.key) (by rw [← h, fieldG_and_maskOf]), h]

theorem decodeWord_eq_error_iff_rowOfKey {op : Word} :
    decodeWord op = .error (.noSuchInstruction op) ↔ ∀ r, rowOfKey (keyOf op) ≠ some r := by
  rw [decodeWord]
  cases rowOfKey (keyOf op) <;> simp

/-- Settles O2: a matching row is the one the lookup of its key finds. -/
theorem opcodeSelectsAtMostOneRow : Obligations.OpcodeSelectsAtMostOneRow := by
  refine ⟨fun op r listed matched => decodeWord_of_rowOfKey (rowOfKey_keyOf_eq_some_iff.mpr ⟨listed, matched⟩),
    fun op r q hr hq mr mq => ?_, fun op none => ?_⟩
  · have foundR := rowOfKey_keyOf_eq_some_iff.mpr ⟨hr, mr⟩
    have foundQ := rowOfKey_keyOf_eq_some_iff.mpr ⟨hq, mq⟩
    exact Option.some.inj (foundR.symm.trans foundQ)
  · refine decodeWord_eq_error_iff_rowOfKey.mpr fun r found => ?_
    obtain ⟨listed, matched⟩ := rowOfKey_keyOf_eq_some_iff.mp found
    exact none r listed matched

/-! ## What a match fixes (30_encoding.md R74, R75) -/

theorem fieldNN_and (a b : Word) : fieldNN (a &&& b) = fieldNN a &&& fieldNN b := BitVec.extractLsb'_and

theorem fieldN_and (a b : Word) : fieldN (a &&& b) = fieldN a &&& fieldN b := BitVec.extractLsb'_and

/-- Under a mask of a plain group the group is fixed and nothing else. -/
theorem fieldG_of_plain {op key : Word} (matched : op &&& 0xF000 = key) : fieldG op = fieldG key := by
  rw [← matched, fieldG_and]
  exact BitVec.and_allOnes.symm

/-- Under the mask of a byte group the group and the low byte are fixed. -/
theorem fields_of_byte {op key : Word} (matched : op &&& 0xF0FF = key) :
    fieldG op = fieldG key ∧ fieldNN op = fieldNN key := by
  rw [← matched, fieldG_and, fieldNN_and]
  exact ⟨BitVec.and_allOnes.symm, BitVec.and_allOnes.symm⟩

/-- Under the mask of group 8 the group and the low nibble are fixed. -/
theorem fields_of_group8 {op key : Word} (matched : op &&& 0xF00F = key) :
    fieldG op = fieldG key ∧ fieldN op = fieldN key := by
  rw [← matched, fieldG_and, fieldN_and]
  exact ⟨BitVec.and_allOnes.symm, BitVec.and_allOnes.symm⟩

/-- A word in the format `XYN` determines its fields. -/
theorem formatXYN_inj {g g' : BitVec 4} {x x' y y' : Reg} {n n' : BitVec 4}
    (h : formatXYN g x y n = formatXYN g' x' y' n') : g = g' ∧ x = x' ∧ y = y' ∧ n = n' :=
  ⟨by simpa using congrArg fieldG h, by simpa using congrArg fieldX h, by simpa using congrArg fieldY h,
    by simpa using congrArg fieldN h⟩

/-- Clearing `N` of a word, and clearing its `Y`. -/
theorem and_keep_all_but_N (op : Word) : op &&& 0xFFF0 = formatXYN (fieldG op) (fieldX op) (fieldY op) 0 := by
  apply BitVec.eq_of_getLsbD_eq
  intro i hi
  conv_lhs => rw [eq_formatXYN op]
  rw [BitVec.getLsbD_and, getLsbD_formatXYN, getLsbD_formatXYN]
  interval_cases i <;> simp

theorem and_keep_all_but_Y (op : Word) : op &&& 0xFF0F = formatXYN (fieldG op) (fieldX op) 0 (fieldN op) := by
  apply BitVec.eq_of_getLsbD_eq
  intro i hi
  conv_lhs => rw [eq_formatXYN op]
  rw [BitVec.getLsbD_and, getLsbD_formatXYN, getLsbD_formatXYN]
  interval_cases i <;> simp

/-- What a row builds from an opcode that matches it encodes to that opcode, but for the ignored bits. -/
def TableRow.Faithful (r : TableRow) : Prop :=
  ∀ op : Word, op &&& r.mask = r.key → encode (r.build op) = op &&& usedBits (r.build op)

/-- An instruction with no ignored bits is encoded as a word in which every bit is used. -/
theorem encode_eq_and_usedBits {i : Instr} {op : Word} (used : usedBits i = 0xFFFF) (henc : encode i = op) :
    encode i = op &&& usedBits i := by
  rw [henc, used]
  exact BitVec.and_allOnes.symm

section RowShapes

variable {name : String} {key : Word} {g : BitVec 4}

theorem faithful_plainA (build : BitVec 12 → Instr) (hg : fieldG key = g)
    (henc : ∀ nnn, encode (build nnn) = formatA g nnn) (used : ∀ nnn, usedBits (build nnn) = 0xFFFF) :
    TableRow.Faithful ⟨name, key, 0xF000, fun op => build (fieldNNN op)⟩ := by
  intro op matched
  refine encode_eq_and_usedBits (used _) ?_
  rw [henc, ← hg, ← fieldG_of_plain matched, ← eq_formatA]

theorem faithful_plainXK (build : Reg → Byte → Instr) (hg : fieldG key = g)
    (henc : ∀ x nn, encode (build x nn) = formatXK g x nn) (used : ∀ x nn, usedBits (build x nn) = 0xFFFF) :
    TableRow.Faithful ⟨name, key, 0xF000, fun op => build (fieldX op) (fieldNN op)⟩ := by
  intro op matched
  refine encode_eq_and_usedBits (used _ _) ?_
  rw [henc, ← hg, ← fieldG_of_plain matched, ← eq_formatXK]

theorem faithful_byteX (build : Reg → Instr) {sub : Byte} (hfields : fieldG key = g ∧ fieldNN key = sub)
    (henc : ∀ x, encode (build x) = formatXK g x sub) (used : ∀ x, usedBits (build x) = 0xFFFF) :
    TableRow.Faithful ⟨name, key, 0xF0FF, fun op => build (fieldX op)⟩ := by
  intro op matched
  obtain ⟨hg, hsub⟩ := fields_of_byte matched
  refine encode_eq_and_usedBits (used _) ?_
  rw [henc, ← hfields.1, ← hfields.2, ← hg, ← hsub, ← eq_formatXK]

theorem faithful_group8XY (build : Reg → Reg → Instr) {n : BitVec 4} (hfields : fieldG key = 0x8 ∧ fieldN key = n)
    (henc : ∀ x y, encode (build x y) = formatXYN 0x8 x y n) (used : ∀ x y, usedBits (build x y) = 0xFFFF) :
    TableRow.Faithful ⟨name, key, 0xF00F, fun op => build (fieldX op) (fieldY op)⟩ := by
  intro op matched
  obtain ⟨hg, hn⟩ := fields_of_group8 matched
  refine encode_eq_and_usedBits (used _ _) ?_
  rw [henc, ← hfields.1, ← hfields.2, ← hg, ← hn, ← eq_formatXYN]

/-- The shifts ignore `Y`. -/
theorem faithful_group8X (build : Reg → Instr) {n : BitVec 4} (hfields : fieldG key = 0x8 ∧ fieldN key = n)
    (henc : ∀ x, encode (build x) = formatXYN 0x8 x 0 n) (used : ∀ x, usedBits (build x) = 0xFF0F) :
    TableRow.Faithful ⟨name, key, 0xF00F, fun op => build (fieldX op)⟩ := by
  intro op matched
  obtain ⟨hg, hn⟩ := fields_of_group8 matched
  rw [henc, used, and_keep_all_but_Y, hg, hn, hfields.1, hfields.2]

/-- The comparing skips of two registers ignore `N`. -/
theorem faithful_plainXY (build : Reg → Reg → Instr) (hg : fieldG key = g)
    (henc : ∀ x y, encode (build x y) = formatXYN g x y 0) (used : ∀ x y, usedBits (build x y) = 0xFFF0) :
    TableRow.Faithful ⟨name, key, 0xF000, fun op => build (fieldX op) (fieldY op)⟩ := by
  intro op matched
  rw [henc, used, and_keep_all_but_N, fieldG_of_plain matched, hg]

theorem faithful_plainXYN (build : Reg → Reg → BitVec 4 → Instr) (hg : fieldG key = g)
    (henc : ∀ x y n, encode (build x y n) = formatXYN g x y n) (used : ∀ x y n, usedBits (build x y n) = 0xFFFF) :
    TableRow.Faithful ⟨name, key, 0xF000, fun op => build (fieldX op) (fieldY op) (fieldN op)⟩ := by
  intro op matched
  refine encode_eq_and_usedBits (used _ _ _) ?_
  rw [henc, ← hg, ← fieldG_of_plain matched, ← eq_formatXYN]

end RowShapes

/-! Every row, group by group. -/

theorem faithful_group0 : ∀ r ∈ rowsGroup0, r.Faithful := by
  simp only [rowsGroup0, List.forall_mem_cons]
  exact ⟨fun _ matched => matched.symm, fun _ matched => matched.symm, List.forall_mem_nil _⟩

theorem faithful_groups1to7 : ∀ r ∈ rowsGroups1to7, r.Faithful := by
  simp only [rowsGroups1to7, List.forall_mem_cons]
  exact ⟨faithful_plainA .jmp rfl (fun _ => rfl) (fun _ => rfl),
    faithful_plainA .jsr rfl (fun _ => rfl) (fun _ => rfl),
    faithful_plainXK .skeqImm rfl (fun _ _ => rfl) (fun _ _ => rfl),
    faithful_plainXK .skneImm rfl (fun _ _ => rfl) (fun _ _ => rfl),
    faithful_plainXY .skeqReg rfl (fun _ _ => rfl) (fun _ _ => rfl),
    faithful_plainXK .movImm rfl (fun _ _ => rfl) (fun _ _ => rfl),
    faithful_plainXK .addImm rfl (fun _ _ => rfl) (fun _ _ => rfl), List.forall_mem_nil _⟩

theorem faithful_group8 : ∀ r ∈ rowsGroup8, r.Faithful := by
  simp only [rowsGroup8, List.forall_mem_cons]
  exact ⟨faithful_group8XY .movReg ⟨rfl, rfl⟩ (fun _ _ => rfl) (fun _ _ => rfl),
    faithful_group8XY .orReg ⟨rfl, rfl⟩ (fun _ _ => rfl) (fun _ _ => rfl),
    faithful_group8XY .andReg ⟨rfl, rfl⟩ (fun _ _ => rfl) (fun _ _ => rfl),
    faithful_group8XY .xorReg ⟨rfl, rfl⟩ (fun _ _ => rfl) (fun _ _ => rfl),
    faithful_group8XY .addReg ⟨rfl, rfl⟩ (fun _ _ => rfl) (fun _ _ => rfl),
    faithful_group8XY .subReg ⟨rfl, rfl⟩ (fun _ _ => rfl) (fun _ _ => rfl),
    faithful_group8X .shr ⟨rfl, rfl⟩ (fun _ => rfl) (fun _ => rfl),
    faithful_group8XY .rsbReg ⟨rfl, rfl⟩ (fun _ _ => rfl) (fun _ _ => rfl),
    faithful_group8X .shl ⟨rfl, rfl⟩ (fun _ => rfl) (fun _ => rfl), List.forall_mem_nil _⟩

theorem faithful_groups9toD : ∀ r ∈ rowsGroups9toD, r.Faithful := by
  simp only [rowsGroups9toD, List.forall_mem_cons]
  exact ⟨faithful_plainXY .skneReg rfl (fun _ _ => rfl) (fun _ _ => rfl),
    faithful_plainA .mvi rfl (fun _ => rfl) (fun _ => rfl),
    faithful_plainA .jmi rfl (fun _ => rfl) (fun _ => rfl),
    faithful_plainXK .rand rfl (fun _ _ => rfl) (fun _ _ => rfl),
    faithful_plainXYN .sprite rfl (fun _ _ _ => rfl) (fun _ _ _ => rfl), List.forall_mem_nil _⟩

theorem faithful_groupE : ∀ r ∈ rowsGroupE, r.Faithful := by
  simp only [rowsGroupE, List.forall_mem_cons]
  exact ⟨faithful_byteX .skpr ⟨rfl, rfl⟩ (fun _ => rfl) (fun _ => rfl),
    faithful_byteX .skup ⟨rfl, rfl⟩ (fun _ => rfl) (fun _ => rfl), List.forall_mem_nil _⟩

theorem faithful_groupF : ∀ r ∈ rowsGroupF, r.Faithful := by
  simp only [rowsGroupF, List.forall_mem_cons]
  exact ⟨faithful_byteX .gdelay ⟨rfl, rfl⟩ (fun _ => rfl) (fun _ => rfl),
    faithful_byteX .key ⟨rfl, rfl⟩ (fun _ => rfl) (fun _ => rfl),
    faithful_byteX .sdelay ⟨rfl, rfl⟩ (fun _ => rfl) (fun _ => rfl),
    faithful_byteX .ssound ⟨rfl, rfl⟩ (fun _ => rfl) (fun _ => rfl),
    faithful_byteX .adi ⟨rfl, rfl⟩ (fun _ => rfl) (fun _ => rfl),
    faithful_byteX .font ⟨rfl, rfl⟩ (fun _ => rfl) (fun _ => rfl),
    faithful_byteX .bcd ⟨rfl, rfl⟩ (fun _ => rfl) (fun _ => rfl),
    faithful_byteX .str ⟨rfl, rfl⟩ (fun _ => rfl) (fun _ => rfl),
    faithful_byteX .ldr ⟨rfl, rfl⟩ (fun _ => rfl) (fun _ => rfl), List.forall_mem_nil _⟩

theorem faithful_of_mem_opcodeTable : ∀ r ∈ opcodeTable, r.Faithful := by
  simp only [opcodeTable, List.forall_mem_append]
  exact ⟨⟨⟨⟨⟨faithful_group0, faithful_groups1to7⟩, faithful_group8⟩, faithful_groups9toD⟩, faithful_groupE⟩,
    faithful_groupF⟩

/-- An opcode that decodes is the encoding of its instruction in every used bit. -/
theorem encode_of_decodeWord {op : Word} {i : Instr} (h : decodeWord op = .ok i) :
    encode i = op &&& usedBits i := by
  cases found : rowOfKey (keyOf op) with
  | none => rw [decodeWord, found] at h; cases h
  | some r =>
    obtain ⟨listed, matched⟩ := rowOfKey_keyOf_eq_some_iff.mp found
    rw [decodeWord_of_rowOfKey found] at h
    cases h
    exact faithful_of_mem_opcodeTable r listed op matched

/-- An opcode that agrees with the encoding of `i` in its used bits decodes to `i`: only the six instructions with
ignored bits have an opcode besides their encoding (30_encoding.md R76). -/
theorem decodeWord_of_usedBits {op : Word} {i : Instr} (h : op &&& usedBits i = encode i) :
    decodeWord op = .ok i := by
  cases i
  case cls =>
    obtain ⟨hg, hnn⟩ := fields_of_byte h
    rw [eq_formatXK op, hg, hnn]
    exact decodeWord_cls _
  case rts =>
    obtain ⟨hg, hnn⟩ := fields_of_byte h
    rw [eq_formatXK op, hg, hnn]
    exact decodeWord_rts _
  case skeqReg x y =>
    obtain ⟨hg, hx, hy, -⟩ := formatXYN_inj ((and_keep_all_but_N op).symm.trans h)
    rw [eq_formatXYN op, hg, hx, hy]
    exact decodeWord_skeqReg x y _
  case skneReg x y =>
    obtain ⟨hg, hx, hy, -⟩ := formatXYN_inj ((and_keep_all_but_N op).symm.trans h)
    rw [eq_formatXYN op, hg, hx, hy]
    exact decodeWord_skneReg x y _
  case shr x =>
    obtain ⟨hg, hx, -, hn⟩ := formatXYN_inj ((and_keep_all_but_Y op).symm.trans h)
    rw [eq_formatXYN op, hg, hx, hn]
    exact decodeWord_shr x _
  case shl x =>
    obtain ⟨hg, hx, -, hn⟩ := formatXYN_inj ((and_keep_all_but_Y op).symm.trans h)
    rw [eq_formatXYN op, hg, hx, hn]
    exact decodeWord_shl x _
  all_goals
    have whole : op = encode _ := BitVec.and_allOnes.symm.trans h
    rw [whole, decodeWord_encode]

/-- Settles O4: agreeing in the used bits with an opcode that decodes is agreeing with the encoding. -/
theorem onlyIgnoredBitsAreLost : Obligations.OnlyIgnoredBitsAreLost := fun _ _ h =>
  ⟨encode_of_decodeWord h, fun _ agrees => decodeWord_of_usedBits (agrees.trans (encode_of_decodeWord h).symm)⟩

/-! ## The opcodes that select no row (30_encoding.md R77) -/

theorem toNat_formatXK (g : BitVec 4) (x : Reg) (nn : Byte) :
    (formatXK g x nn).toNat = g.toNat * 4096 + x.val * 256 + nn.toNat := by
  have hx : x.val < 2 ^ 4 := x.isLt
  have hnn := nn.isLt
  simp only [formatXK, BitVec.toNat_append, BitVec.toNat_ofFin]
  rw [← Nat.shiftLeft_add_eq_or_of_lt hx, ← Nat.shiftLeft_add_eq_or_of_lt hnn]
  simp only [Nat.shiftLeft_eq]
  omega

/-- The key as a number: the group, and the low bits its mask keeps (30_encoding.md R72, R73). -/
theorem toNat_keyOf_of_group8 {op : Word} (group8 : op.toNat / 4096 = 8) :
    (keyOf op).toNat = op.toNat % 16 + op.toNat / 4096 * 4096 := by
  have hg : fieldG op = 0x8 := (fieldG_eq_iff_toNat op 0x8).mpr group8
  have hkey : keyOf op = formatXK 0x8 0 (0#4 ++ fieldN op) := by
    conv_lhs => rw [eq_formatXYN op, hg, keyOf_formatXYN_group8, formatXYN_eq_formatXK]
    rfl
  have low : (0#4 ++ fieldN op : Byte).toNat = op.toNat % 16 := by
    rw [BitVec.toNat_append, toNat_fieldN]
    simp
  rw [hkey, toNat_formatXK, low, group8, Nat.add_comm]
  simp

theorem toNat_keyOf_of_byte {op : Word} (byte : op.toNat / 4096 = 0 ∨ op.toNat / 4096 = 14 ∨ op.toNat / 4096 = 15) :
    (keyOf op).toNat = op.toNat % 256 + op.toNat / 4096 * 4096 := by
  have hg : byteGroup (fieldG op) = true := by simpa [byteGroup, fieldG_eq_iff_toNat, or_assoc] using byte
  have hkey : keyOf op = formatXK (fieldG op) 0 (fieldNN op) := by
    conv_lhs => rw [eq_formatXK op, keyOf_formatXK_byte hg]
  rw [hkey, toNat_formatXK, toNat_fieldG, toNat_fieldNN, Nat.add_comm]
  simp

theorem toNat_keyOf_of_plain {op : Word} (group8 : op.toNat / 4096 ≠ 8)
    (byte : ¬(op.toNat / 4096 = 0 ∨ op.toNat / 4096 = 14 ∨ op.toNat / 4096 = 15)) :
    (keyOf op).toNat = op.toNat / 4096 * 4096 := by
  have hg : plainGroup (fieldG op) = true := by
    simpa [plainGroup, fieldG_eq_iff_toNat, and_assoc] using And.intro group8 (by simpa using byte)
  have hkey : keyOf op = formatXK (fieldG op) 0 0 := by
    conv_lhs => rw [eq_formatXK op, keyOf_formatXK_plain hg]
  rw [hkey, toNat_formatXK, toNat_fieldG]
  simp

/-- The key column of 30_encoding.md R75, as numbers. -/
def tableKeys : List Nat :=
  [0x00E0, 0x00EE, 0x1000, 0x2000, 0x3000, 0x4000, 0x5000, 0x6000, 0x7000,
   0x8000, 0x8001, 0x8002, 0x8003, 0x8004, 0x8005, 0x8006, 0x8007, 0x800E,
   0x9000, 0xA000, 0xB000, 0xC000, 0xD000, 0xE09E, 0xE0A1,
   0xF007, 0xF00A, 0xF015, 0xF018, 0xF01E, 0xF029, 0xF033, 0xF055, 0xF065]

theorem map_key_opcodeTable : opcodeTable.map (fun r => r.key.toNat) = tableKeys := rfl

theorem decodeWord_eq_error_iff_key {op : Word} :
    decodeWord op = .error (.noSuchInstruction op) ↔ (keyOf op).toNat ∉ tableKeys := by
  simp only [decodeWord_eq_error_iff_rowOfKey, ne_eq, rowOfKey_eq_some_iff, ← map_key_opcodeTable, List.mem_map,
    BitVec.toNat_inj, not_exists]

/-! The keys of each group by their low bits: the other keys of the column differ in the group. -/

theorem mem_tableKeys_group8 {n : Nat} (subcode : n < 16) : n + 8 * 4096 ∈ tableKeys ↔ n ≤ 7 ∨ n = 0xE := by
  simp only [tableKeys, List.mem_cons, List.not_mem_nil, or_false, false_or, Nat.reduceMul, Nat.reduceEqDiff]
  omega

theorem mem_tableKeys_group0 {nn : Nat} (low : nn < 256) : nn + 0 * 4096 ∈ tableKeys ↔ nn ∈ [0xE0, 0xEE] := by
  simp only [tableKeys, List.mem_cons, List.not_mem_nil, or_false, Nat.reduceMul, Nat.add_zero]
  omega

theorem mem_tableKeys_groupE {nn : Nat} (low : nn < 256) : nn + 14 * 4096 ∈ tableKeys ↔ nn ∈ [0x9E, 0xA1] := by
  simp only [tableKeys, List.mem_cons, List.not_mem_nil, or_false, false_or, Nat.reduceMul, Nat.reduceEqDiff]
  omega

theorem mem_tableKeys_groupF {nn : Nat} :
    nn + 15 * 4096 ∈ tableKeys ↔ nn ∈ [0x07, 0x0A, 0x15, 0x18, 0x1E, 0x29, 0x33, 0x55, 0x65] := by
  simp only [tableKeys, List.mem_cons, List.not_mem_nil, or_false, false_or, Nat.reduceMul, Nat.reduceEqDiff]

/-- Every opcode of a plain group has a key. -/
theorem mem_tableKeys_plain : ∀ g < 16, g ≠ 8 → ¬(g = 0 ∨ g = 14 ∨ g = 15) → g * 4096 ∈ tableKeys := by decide

/-- Settles O5: in each group the key is a number, to be compared with the key column. -/
theorem invalidOpcodesAreTheListedOnes : Obligations.InvalidOpcodesAreTheListedOnes := by
  intro op
  have subcode : op.toNat % 16 < 16 := Nat.mod_lt _ (by decide)
  have low : op.toNat % 256 < 256 := Nat.mod_lt _ (by decide)
  rw [decodeWord_eq_error_iff_key]
  by_cases group8 : op.toNat / 4096 = 8
  · rw [toNat_keyOf_of_group8 group8, group8, mem_tableKeys_group8 subcode]
    simp only [List.mem_cons, List.not_mem_nil, or_false, true_and]
    omega
  by_cases byte : op.toNat / 4096 = 0 ∨ op.toNat / 4096 = 14 ∨ op.toNat / 4096 = 15
  · rw [toNat_keyOf_of_byte byte]
    rcases byte with group | group | group
    · rw [group, mem_tableKeys_group0 low]
      simp
    · rw [group, mem_tableKeys_groupE low]
      simp
    · rw [group, mem_tableKeys_groupF]
      simp
  · have nibble : op.toNat / 4096 < 16 := by have := op.isLt; omega
    rw [toNat_keyOf_of_plain group8 byte]
    refine iff_of_false (not_not_intro (mem_tableKeys_plain _ nibble group8 byte)) ?_
    omega

/-- Settles O6: each word is a row's format with the operands written in, the last one is in no row. -/
theorem sampleOpcodesDecode : Obligations.SampleOpcodesDecode := by
  refine ⟨decodeWord_cls 10, decodeWord_jmp 0xABC, decodeWord_skeqReg 10 11 15, decodeWord_encode (.rsbReg 10 11),
    decodeWord_shl 10 11, decodeWord_encode (.sprite 1 2 15), decodeWord_encode (.skup 1), decodeWord_encode (.key 15),
    decodeWord_encode (.ldr 3), decodeWord_eq_error_iff_key.mpr (by decide)⟩

end Sys2Proof
end

section
/-! SUPPORT. The remaining handlers, each with its decoding, its effect and its frame: jumps and skips
(41_control_flow.md), shifts and draws (42_alu.md), the index (43_index_memory.md), sprites (44_display.md), keys and
timers (45_keys_timers.md). -/

namespace Sys2Proof.Machine

/-! ## What further effects add to a frame -/

/-- Taking an external answer adds the count of answers to what is written (log entry 3). -/
theorem Frame.answered {w : Writes} {s t : State} (frame : Frame w s t) :
    Frame { w with asked := true } s t.answered := by
  cases frame
  constructor
  case asked => nofun
  all_goals assumption

/-- A report to the trace sink adds the trace (60_exceptions.md R228). -/
theorem Frame.report {w : Writes} {s t : State} (frame : Frame w s t) (r : Option Report) :
    Frame { w with trace := true } s { t with trace := r } := by
  cases frame
  constructor
  case trace => nofun
  all_goals assumption

/-- A change of `STATUS` adds the status. -/
theorem Frame.setStatus {w : Writes} {s t : State} (frame : Frame w s t) (st : Status) :
    Frame { w with status := true } s { t with status := st } := by
  cases frame
  constructor
  case status => nofun
  all_goals assumption

@[simp] theorem readByte_completeCycle (s : State) (a : Nat) : (completeCycle s).readByte a = s.readByte a := by
  simp only [State.readByte, completeCycle_mem]

/-- The end of a cycle adds the divider, the timers and the pulses (40_dispatcher_cycle.md R108). -/
theorem Frame.completeCycle {w : Writes} {s t : State} (frame : Frame w s t) :
    Frame { w with divider := true, delay := true, sound := true, beeps := true } s (completeCycle t) := by
  have memory := frame.memory
  cases frame
  constructor
  case divider | delay | sound | beeps => nofun
  case memory => exact fun a unlisted => (readByte_completeCycle t a).trans (memory a unlisted)
  all_goals simpa

/-! ## Jumps and comparing skips (41_control_flow.md R123 to R127) -/

@[simp] theorem toNat_zextByte (b : Byte) : (zextByte b).toNat = b.toNat := BitVec.toNat_setWidth_of_le (by decide)

/-- Settles O41: the two zero-extended summands do not reach 65536. -/
theorem jmiJumpsIndexedByV0 : Obligations.JmiJumpsIndexedByV0 := by
  refine ⟨decodeWord_plainA .jmi (by decide) rfl, fun nnn s => ⟨_, rfl, ?_, frame_setPc s _⟩⟩
  have := nnn.isLt
  have := (s.getV 0).isLt
  simp only [BitVec.toNat_add, toNat_zextNNN, toNat_zextByte]
  omega

/-- A skip writes `PC` only (41_control_flow.md R129). -/
theorem frame_skipIf (s : State) (c : Bool) : Frame { pc := true } s (s.skipIf c) := frame_setPc s _

/-- A handler that skips on an equality. -/
theorem answers_skip_if_eq {i : Instr} {s : State} {a b : Byte}
    (answer : exec i s = .next (s.skipIf (a == b))) :
    ∃ t, exec i s = .next t ∧ t.pc = (if a = b then s.pc + 2 else s.pc) ∧ Frame { pc := true } s t :=
  ⟨_, answer, by simp only [skipIf_pc, beq_iff_eq], frame_skipIf s _⟩

/-- A handler that skips on an inequality. -/
theorem answers_skip_if_ne {i : Instr} {s : State} {a b : Byte}
    (answer : exec i s = .next (s.skipIf (a != b))) :
    ∃ t, exec i s = .next t ∧ t.pc = (if a = b then s.pc else s.pc + 2) ∧ Frame { pc := true } s t :=
  ⟨_, answer, by simp only [skipIf_pc, bne_iff_ne, ne_eq, ite_not], frame_skipIf s _⟩

/-- Settles O42: two skips on an equality, two on an inequality. -/
theorem skipsCompareAndSkipOneInstruction : Obligations.SkipsCompareAndSkipOneInstruction :=
  ⟨fun x nn => ⟨decodeWord_plainXK .skeqImm (by decide) rfl x nn, decodeWord_plainXK .skneImm (by decide) rfl x nn⟩,
    fun x y ign => ⟨decodeWord_skeqReg x y ign, decodeWord_skneReg x y ign⟩,
    fun _ _ _ => ⟨answers_skip_if_eq rfl, answers_skip_if_ne rfl⟩,
    fun _ _ _ => ⟨answers_skip_if_eq rfl, answers_skip_if_ne rfl⟩⟩

/-! ## Shifts and draws (42_alu.md R148, R150, R151) -/

theorem toNat_shiftedOutRight (a : Byte) : (shiftedOutRight a).toNat = a.toNat % 2 :=
  (Nat.toNat_testBit a.toNat 0).trans (by rw [pow_zero, Nat.div_one])

theorem toNat_shiftedOutLeft (a : Byte) : (shiftedOutLeft a).toNat = a.toNat / 128 := by
  have := a.isLt
  refine (Nat.toNat_testBit a.toNat 7).trans ?_
  omega

theorem toNat_shiftRight_one (a : Byte) : (a >>> 1).toNat = a.toNat / 2 := by
  rw [BitVec.toNat_ushiftRight, Nat.shiftRight_one]

theorem toNat_shiftLeft_one (a : Byte) : (a <<< 1).toNat = 2 * a.toNat % 256 := by
  rw [BitVec.toNat_shiftLeft, Nat.shiftLeft_eq, Nat.pow_one, Nat.mul_comm]

/-- Settles O48: the shifted byte is the result, the bit shifted out, written after it, is what VF ends as. -/
theorem shiftsMoveOneBitIntoTheFlag : Obligations.ShiftsMoveOneBitIntoTheFlag :=
  ⟨fun x ign => ⟨decodeWord_shr x ign.toFin, decodeWord_shl x ign.toFin⟩,
    fun _ _ => ⟨answers_result_and_flag rfl (toNat_shiftRight_one _) (toNat_shiftedOutRight _),
      answers_result_and_flag rfl (toNat_shiftLeft_one _) (toNat_shiftedOutLeft _)⟩⟩

/-- Settles O49: whatever the draw is, a bit outside the mask is 0. -/
theorem randStoresAMaskedDraw : Obligations.RandStoresAMaskedDraw := by
  refine ⟨decodeWord_plainXK .rand (by decide) rfl, fun x nn s => ?_⟩
  have stored : (randWith s.nextDraw x nn s).getV x = Config.randomDraw s.asked &&& nn := getV_setV_same s x _
  refine ⟨_, rfl, stored, fun j masked => ?_, rfl, (frame_setV s x _).answered⟩
  rw [stored, BitVec.getLsbD_and, masked, Bool.and_false]

/-! ## The index (43_index_memory.md R161, R162) -/

/-- Settles O51: the addition of words wraps. -/
theorem adiAddsToTheIndex : Obligations.AdiAddsToTheIndex := by
  refine ⟨decodeWord_byteX .adi (by decide) rfl, fun x s => ⟨_, rfl, ?_, frame_setIndex s _⟩⟩
  simp only [BitVec.toNat_add, toNat_zextByte]

/-- Settles O52: five times a byte does not wrap. -/
theorem fontPointsAtTheGlyph : Obligations.FontPointsAtTheGlyph := by
  refine ⟨decodeWord_byteX .font (by decide) rfl, fun x s => ⟨_, rfl, ?_, frame_setIndex s _⟩⟩
  have small := (s.getV x).isLt
  have five : (5 : Word).toNat = 5 := rfl
  rw [BitVec.toNat_mul, five, toNat_zextByte]
  omega

/-! ## Sprites (44_display.md R182) -/

theorem spriteRows_bounds (n : BitVec 4) : 1 ≤ spriteRows n ∧ spriteRows n ≤ 16 := by
  have := n.isLt
  unfold spriteRows
  split
  · exact ⟨by decide, by decide⟩
  · rename_i nonzero
    have : n.toNat ≠ 0 := fun zero => nonzero (BitVec.eq_of_toNat_eq zero)
    omega

/-- The pixels a statement calls covered are those the handler draws, as the display takes them. -/
theorem spriteCovers_iff {x y : Reg} {n : Nat} {s : State} {q : Pixel} :
    SpriteCovers x y n s q ↔
      ∃ p ∈ litPixels (s.getV x).toNat (s.getV y).toNat (Memory.readBytes s.mem s.i.toNat n),
        normPixel s.params.displayNorm p = some q := by
  simp only [SpriteCovers, mem_litPixels, Memory.length_readBytes, Memory.getElem_readBytes]
  constructor
  · rintro ⟨r, c, hr, hc, lit, taken⟩
    exact ⟨_, ⟨r, c, hr, hc, lit, rfl⟩, taken⟩
  · rintro ⟨_, ⟨r, c, hr, hc, lit, rfl⟩, taken⟩
    exact ⟨r, c, hr, hc, lit, taken⟩

section Drawn

variable (x y : Reg) {n : Nat} (s : State) (rows : n ≤ 16)

include rows

/-- The pixels of one sprite are distinct for the display, so each is toggled once (44_display.md R182). -/
theorem mem_drawSprite_fb (q : Pixel) :
    q ∈ (drawSprite x y (Memory.readBytes s.mem s.i.toNat n) s).fb ↔ (SpriteCovers x y n s q ↔ q ∉ s.fb) := by
  rw [spriteCovers_iff]
  exact mem_drawPixels (normDistinct_litPixels _ _ _ _ (by rwa [Memory.length_readBytes]))

open Classical in
/-- VF ends as the collision: a covered pixel was on. -/
theorem getV_VF_drawSprite :
    (drawSprite x y (Memory.readBytes s.mem s.i.toNat n) s).getV VF =
      if ∃ q, SpriteCovers x y n s q ∧ q ∈ s.fb then 1 else 0 := by
  have collision := hit_drawPixels (acc := (s.fb, false))
    (normDistinct_litPixels s.params.displayNorm (s.getV x).toNat (s.getV y).toNat
      (Memory.readBytes s.mem s.i.toNat n) (by rwa [Memory.length_readBytes]))
  rw [drawSprite, getV_setV_same, flagByte]
  refine if_congr (collision.trans ?_) rfl rfl
  simp only [Bool.false_eq_true, false_or, spriteCovers_iff]
  constructor
  · rintro ⟨p, drawn, q, taken, lit⟩
    exact ⟨q, ⟨p, drawn, taken⟩, lit⟩
  · rintro ⟨q, ⟨p, drawn, taken⟩, lit⟩
    exact ⟨p, drawn, q, taken, lit⟩

end Drawn

theorem frame_drawSprite (x y : Reg) (bytes : List Byte) (s : State) :
    Frame { regs := [15], display := true } s (drawSprite x y bytes s) := by
  constructor
  case regs => exact fun r unlisted => getV_setV_other _ VF r _ (List.ne_of_not_mem_cons unlisted)
  case display => nofun
  case callStack => exact fun _ => ⟨rfl, rfl⟩
  all_goals (intros; rfl)

theorem exec_sprite_inside (x y : Reg) (n : BitVec 4) {s : State} (inside : s.i.toNat + spriteRows n ≤ 4096) :
    exec (.sprite x y n) s = .next (drawSprite x y (Memory.readBytes s.mem s.i.toNat (spriteRows n)) s) :=
  exec_load_inside (f := fun bytes => drawSprite x y bytes s) rfl inside

/-- Settles O57: inside memory by what the draw toggles and reports, past it by the halt of a load. -/
theorem spriteTogglesItsPixelsAndReportsCollision : Obligations.SpriteTogglesItsPixelsAndReportsCollision := by
  refine ⟨decodeWord_plainXYN .sprite (by decide) rfl, ?inside, ?outside⟩
  case inside =>
    rintro x y n s rows (rfl : rows = spriteRows n) inside
    obtain ⟨least, most⟩ := spriteRows_bounds n
    have toggled := mem_drawSprite_fb x y s most
    have collision := getV_VF_drawSprite x y s most
    refine ⟨_, exec_sprite_inside x y n (by omega), fun p covered => ?_, fun p uncovered => ?_, fun hit => ?_,
      fun miss => ?_, frame_drawSprite x y _ s⟩
    · simp only [toggled, covered, true_iff]
    · simp only [toggled, uncovered, false_iff, not_not]
    · exact collision.trans (if_pos hit)
    · exact collision.trans (if_neg fun ⟨p, covered, lit⟩ => miss p covered lit)
  case outside =>
    rintro x y n s rows (rfl : rows = spriteRows n) outside
    obtain ⟨least, -⟩ := spriteRows_bounds n
    exact haltsWith_of_load_outside rfl (by omega)

/-! ## Keys and timers (45_keys_timers.md R190 to R196) -/

/-- Settles O58: the poll's answer decides both skips. -/
theorem keySkipsFollowThePoll : Obligations.KeySkipsFollowThePoll := by
  refine ⟨fun x => ⟨decodeWord_byteX .skpr (by decide) rfl x, decodeWord_byteX .skup (by decide) rfl x⟩,
    fun x s => ⟨s.nextPoll (s.getV x), fun key => ?_, fun noKey => ?_,
      ⟨_, rfl, rfl, rfl, (frame_skipIf s _).answered⟩, ⟨_, rfl, ?_, rfl, (frame_skipIf s _).answered⟩⟩⟩
  · rw [State.nextPoll, if_pos key]
    rfl
  · exact if_neg (Nat.not_le.mpr noKey)
  · cases poll : s.nextPoll (s.getV x) <;> rfl

theorem frame_setStatus (s : State) (st : Status) : Frame { status := true } s { s with status := st } := by
  constructor
  case status => nofun
  case callStack => exact fun _ => ⟨rfl, rfl⟩
  all_goals (intros; rfl)

theorem frame_setDelay (s : State) (b : Byte) : Frame { delay := true } s { s with dt := b } := by
  constructor
  case delay => nofun
  case callStack => exact fun _ => ⟨rfl, rfl⟩
  all_goals (intros; rfl)

theorem frame_setSound (s : State) (b : Byte) : Frame { sound := true } s { s with st := b } := by
  constructor
  case sound => nofun
  case callStack => exact fun _ => ⟨rfl, rfl⟩
  all_goals (intros; rfl)

/-- Settles O60: one field is written by each. -/
theorem timerInstructionsMoveWholeBytes : Obligations.TimerInstructionsMoveWholeBytes :=
  ⟨fun x => ⟨decodeWord_byteX .gdelay (by decide) rfl x, decodeWord_byteX .sdelay (by decide) rfl x,
      decodeWord_byteX .ssound (by decide) rfl x⟩,
    fun x s => ⟨⟨_, rfl, getV_setV_same s x s.dt, frame_setV s x s.dt⟩, ⟨_, rfl, rfl, frame_setDelay s _⟩,
      ⟨_, rfl, rfl, frame_setSound s _⟩⟩⟩

/-- What the completion of a cycle makes of the clock of `s`: the divider, the timers and the pulses
(40_dispatcher_cycle.md R108, 60_exceptions.md R221, R222). -/
def ClockAdvanced (s t : State) : Prop :=
  (s.params.timerMode = .external → t.cyc = s.cyc ∧ t.dt = s.dt ∧ t.st = s.st ∧ t.beeps = s.beeps) ∧
  (s.params.timerMode = .divided → t.cyc.val = (s.cyc.val + 1) % 5 ∧
    t.dt.toNat = s.dt.toNat - (if s.cyc.val = 4 then 1 else 0) ∧
    t.st.toNat = s.st.toNat - (if s.cyc.val = 4 then 1 else 0) ∧
    t.beeps = s.beeps + (if s.cyc.val = 4 ∧ s.st.toNat = 1 then 1 else 0))

theorem clockAdvanced_completeCycle (s : State) : ClockAdvanced s (completeCycle s) :=
  ⟨fun mode => by rw [completeCycle_external mode]; exact ⟨rfl, rfl, rfl, rfl⟩, completeCycle_divided_fields⟩

/-- The report before the completion does not touch the clock. -/
theorem clockAdvanced_finishExecuted (ia : Word) (i : Instr) (s : State) : ClockAdvanced s (finishExecuted ia i s) :=
  clockAdvanced_completeCycle { s with trace := some (.executed ia i (flowBreak ia s) s.snapshot) }

theorem clockAdvanced_finishSkipped (ia op : Word) (s : State) : ClockAdvanced s (finishSkipped ia op s) :=
  clockAdvanced_completeCycle { s with trace := some (.skipped ia op (flowBreak ia s) s.snapshot) }

theorem clockAdvanced_resolveKey (x : Reg) (k : BitVec 4) (s : State) : ClockAdvanced s (resolveKey x k s) :=
  clockAdvanced_finishExecuted s.ia (.key x) { s.setV x (k.setWidth 8) with status := .running }

theorem frame_resolveKey (x : Reg) (k : BitVec 4) (s : State) :
    Frame { regs := [x], status := true, trace := true, divider := true, delay := true, sound := true, beeps := true }
      s (resolveKey x k s) :=
  (((frame_setV s x _).setStatus _).report _).completeCycle

/-- A suspended instruction stayed at `PC - 2`, so its completion is no flow break (40_dispatcher_cycle.md R106). -/
theorem resolveKey_trace (x : Reg) (k : BitVec 4) (s : State) :
    ∃ snap, (resolveKey x k s).trace = some (.executed (s.pc - 2) (.key x) false snap) ∧
      snap.pc = s.pc ∧ snap.i = s.i ∧ snap.sp = s.sp ∧ snap.v = (resolveKey x k s).v := by
  have noBreak : flowBreak s.ia { s.setV x (k.setWidth 8) with status := .running } = false := by
    simp [flowBreak, State.ia]
  refine ⟨State.snapshot { s.setV x (k.setWidth 8) with status := .running }, ?_, rfl, rfl, rfl, ?_⟩
  · rw [resolveKey, finishExecuted_trace, noBreak]
    rfl
  · rw [resolveKey, finishExecuted_v]
    rfl

/-- Settles O59: `key` only suspends; the event completes the cycle with the register written. -/
theorem keyWaitsUntilAKeyIsResolved : Obligations.KeyWaitsUntilAKeyIsResolved := by
  refine ⟨decodeWord_byteX .key (by decide) rfl, fun x s => ⟨_, rfl, rfl, frame_setStatus s _⟩,
    fun x k s waiting delivered => ?_⟩
  have answer : step s = .next (resolveKey x k s.eventTaken) := by
    rw [step_of_head delivered]
    simp only [hostEvent, keyEvent, eventTaken_status, waiting]
  have written : ((resolveKey x k s.eventTaken).getV x).toNat = k.toNat := by
    rw [resolveKey, finishExecuted, getV_completeCycle]
    exact (congrArg BitVec.toNat (getV_setV_same s x _)).trans (BitVec.toNat_setWidth_of_le (by decide))
  obtain ⟨external, divided⟩ := clockAdvanced_resolveKey x k s.eventTaken
  exact ⟨_, answer, written, finishExecuted_status _ _ _, resolveKey_trace x k s.eventTaken, external, divided,
    frame_resolveKey x k s.eventTaken⟩

end Sys2Proof.Machine
end

section
/-! SUPPORT. What the instruction set as a whole can write: a table of the parts each instruction writes, one case
analysis that every handler keeps to it or halts for a listed cause, and the statements read off the table. -/

namespace Sys2Proof.Machine

/-! ## The table -/

/-- The parts of the state that the handler of an instruction writes when it does not halt. -/
def writesOf (s : State) : Instr → Writes
  | .cls => { display := true }
  | .rts | .jsr _ => { pc := true, callStack := true }
  | .jmp _ | .jmi _ | .skeqImm _ _ | .skneImm _ _ | .skeqReg _ _ | .skneReg _ _ => { pc := true }
  | .movImm x _ | .addImm x _ | .movReg x _ | .orReg x _ | .andReg x _ | .xorReg x _ | .gdelay x => { regs := [x] }
  | .addReg x _ | .subReg x _ | .rsbReg x _ | .shr x | .shl x => { regs := [x, 15] }
  | .mvi _ | .adi _ | .font _ => { index := true }
  | .rand x _ => { regs := [x], asked := true }
  | .sprite _ _ _ => { regs := [15], display := true }
  | .skpr _ | .skup _ => { pc := true, asked := true }
  | .key _ => { status := true }
  | .sdelay _ => { delay := true }
  | .ssound _ => { sound := true }
  | .bcd _ => { memBase := s.i.toNat, memLen := 3 }
  | .str x => { memBase := s.i.toNat, memLen := x.val + 1 }
  | .ldr x => { regs := (List.finRange 16).filter (fun j => j ≤ x) }

/-- The condition under which a handler halts, and the reason it gives (60_exceptions.md R213, R214, R216). -/
def HaltCause (s : State) (r : HaltReason) : Instr → Prop
  | .jsr _ => r = .stackOverflow ∧ s.sp.val = 16
  | .rts => r = .stackUnderflow ∧ s.sp.val = 0
  | .bcd _ => r = .dataRange ∧ 4096 < s.i.toNat + 3
  | .str x | .ldr x => r = .dataRange ∧ 4096 < s.i.toNat + (x.val + 1)
  | .sprite _ _ n => r = .dataRange ∧ 4096 < s.i.toNat + spriteRows n
  | _ => False

/-! ## Stores outside the range -/

/-- A write changes no other address, whether or not the list is canonical. -/
theorem Memory.read_write_other (m : Memory) {a c : Nat} (v : Byte) (other : c ≠ a) :
    Memory.read (Memory.write m a v) c = Memory.read m c := by
  have front (m : Memory) : Memory.read (Memory.cons a v m) c = Memory.read m c := by
    unfold Memory.cons
    split
    · rfl
    · simp [Memory.read, other]
  induction m with
  | nil => exact front []
  | cons p m ih =>
    unfold Memory.write
    split
    · exact front _
    · split
      · rename_i same
        rw [front, Memory.read, if_neg (same ▸ other)]
      · simp only [Memory.read, ih]

theorem Memory.read_writeBytes_outside (m : Memory) {a c : Nat} {bs : List Byte}
    (outside : ¬(a ≤ c ∧ c < a + bs.length)) : Memory.read (Memory.writeBytes m a bs) c = Memory.read m c := by
  induction bs generalizing m a with
  | nil => rfl
  | cons b bs ih =>
    rw [List.length_cons] at outside
    rw [Memory.writeBytes, ih _ (by omega), Memory.read_write_other _ _ (by omega)]

/-- `frame_writeBytes` without its hypotheses: no other address changes, whatever the list and the range. -/
theorem frame_store (s : State) (a : Nat) (bs : List Byte) :
    Frame { memBase := a, memLen := bs.length } s { s with mem := Memory.writeBytes s.mem a bs } := by
  constructor
  case memory => exact fun c outside => Memory.read_writeBytes_outside s.mem outside
  case callStack => exact fun _ => ⟨rfl, rfl⟩
  all_goals (intros; rfl)

/-! ## The case analysis -/

/-- Every handler halts for its listed cause, or writes what the table says. -/
theorem exec_halts_or_frame {i : Instr} {s t : State} (h : exec i s = .next t) :
    (∃ r, HaltCause s r i ∧ t = raiseHalt r s.ia s) ∨ Frame (writesOf s i) s t := by
  cases i
  case jsr nnn =>
    rcases execJsr_eq_next h with ⟨_, rfl⟩ | ⟨full, rfl⟩
    · exact .inr (frame_setPc_setStack s _ _ _)
    · exact .inl ⟨_, ⟨rfl, full⟩, rfl⟩
  case rts =>
    rcases execRts_eq_next h with ⟨_, rfl⟩ | ⟨empty, rfl⟩
    · exact .inr (frame_setPc_setStack s _ _ s.stack)
    · exact .inl ⟨_, ⟨rfl, empty⟩, rfl⟩
  case bcd x =>
    rcases store_eq_next h with ⟨_, rfl⟩ | ⟨outside, rfl⟩
    · exact .inr (frame_store s s.i.toNat (decimalDigits (s.getV x)))
    · exact .inl ⟨_, ⟨rfl, outside⟩, rfl⟩
  case str x =>
    rcases store_eq_next h with ⟨_, rfl⟩ | ⟨outside, rfl⟩
    · have frame := frame_store s s.i.toNat (s.regsUpTo x)
      rw [length_regsUpTo] at frame
      exact .inr frame
    · rw [length_regsUpTo] at outside
      exact .inl ⟨_, ⟨rfl, outside⟩, rfl⟩
  case ldr x =>
    rcases load_eq_next h with ⟨_, rfl⟩ | ⟨outside, rfl⟩
    · exact .inr (frame_loadRegs s x (Memory.length_readBytes _ _ _))
    · exact .inl ⟨_, ⟨rfl, outside⟩, rfl⟩
  case sprite x y n =>
    rcases load_eq_next h with ⟨_, rfl⟩ | ⟨outside, rfl⟩
    · exact .inr (frame_drawSprite x y _ s)
    · exact .inl ⟨_, ⟨rfl, outside⟩, rfl⟩
  all_goals cases h; right
  case cls => exact frame_setDisplay s []
  case jmp | jmi | skeqImm | skneImm | skeqReg | skneReg => exact frame_setPc s _
  case movImm | addImm | movReg | orReg | andReg | xorReg | gdelay => exact frame_setV s _ _
  case addReg | subReg | rsbReg | shr | shl => exact frame_writeWithFlag _ _ _ s
  case mvi | adi | font => exact frame_setIndex s _
  case rand => exact (frame_setV s _ _).answered
  case skpr | skup => exact (frame_skipIf s _).answered
  case key => exact frame_setStatus s _
  case sdelay => exact frame_setDelay s _
  case ssound => exact frame_setSound s _

/-- A halt writes `STATUS` and the report, whatever else might be written. -/
theorem frame_raiseHalt_of (w : Writes) (reason : HaltReason) (addr : Word) (s : State) :
    Frame { w with status := true, trace := true } s (raiseHalt reason addr s) := by
  constructor
  case status | trace => nofun
  case callStack => exact fun _ => ⟨rfl, rfl⟩
  all_goals (intros; rfl)

/-- The table bounds what a handler changes besides `STATUS` and the report, halted or not. -/
theorem exec_frame {i : Instr} {s t : State} (h : exec i s = .next t) :
    Frame { writesOf s i with status := true, trace := true } s t := by
  rcases exec_halts_or_frame h with ⟨r, -, rfl⟩ | frame
  · exact frame_raiseHalt_of _ r s.ia s
  · exact (frame.setStatus t.status).report t.trace

/-- What a handler makes of `STATUS`: it stays, or `key` suspends, or the handler halts for its listed cause. -/
theorem exec_status {i : Instr} {s t : State} (h : exec i s = .next t) :
    t.status = s.status ∨ (∃ x, i = .key x ∧ t.status = .waiting x) ∨
      ∃ r, HaltCause s r i ∧ t = raiseHalt r s.ia s := by
  rcases exec_halts_or_frame h with halts | frame
  · exact .inr (.inr halts)
  · cases i
    case key x =>
      cases h
      exact .inr (.inl ⟨x, rfl, rfl⟩)
    all_goals exact .inl (frame.status rfl)

/-! ## The statements -/

/-- Settles O14: the only handlers that end halted raise the halt at `ia` for their listed cause. -/
theorem handlerHaltsArePreciseAndListed : Obligations.HandlerHaltsArePreciseAndListed := by
  intro i s t r a running h halted
  rcases exec_status h with same | ⟨x, -, waiting⟩ | ⟨r', cause, rfl⟩
  · rw [same, running] at halted
    cases halted
  · rw [waiting] at halted
    cases halted
  · obtain ⟨rfl, rfl⟩ : r' = r ∧ s.ia = a := by simpa using halted
    refine ⟨rfl, rfl, frame_raiseHalt r' s.ia s, ?_⟩
    cases i
    case jsr nnn => exact .inl ⟨cause.1, cause.2, nnn, rfl⟩
    case rts => exact .inr (.inl ⟨cause.1, cause.2, rfl⟩)
    case bcd x => exact .inr (.inr ⟨cause.1, .inl ⟨Nat.lt_of_succ_lt_succ cause.2, x, rfl⟩⟩)
    case str x => exact .inr (.inr ⟨cause.1, .inr (.inl ⟨x, Nat.lt_of_succ_lt_succ cause.2, .inl rfl⟩)⟩)
    case ldr x => exact .inr (.inr ⟨cause.1, .inr (.inl ⟨x, Nat.lt_of_succ_lt_succ cause.2, .inr rfl⟩)⟩)
    case sprite x y n =>
      obtain ⟨hr, outside⟩ := cause
      have := (spriteRows_bounds n).1
      have past : 4095 < s.i.toNat + spriteRows n - 1 := by omega
      exact .inr (.inr ⟨hr, .inr (.inr ⟨x, y, n, past, rfl⟩)⟩)
    all_goals exact cause.elim

/-- Settles O23: the other instructions have an empty range in the table. -/
theorem onlyBcdAndStrWriteMemory : Obligations.OnlyBcdAndStrWriteMemory := by
  intro i s t h notBcd notStr a
  have noRange : (writesOf s i).memLen = 0 := by
    cases i
    case bcd x => exact absurd rfl (notBcd x)
    case str x => exact absurd rfl (notStr x)
    all_goals rfl
  refine (exec_frame h).memory a fun ⟨(above : (writesOf s i).memBase ≤ a), below⟩ => ?_
  change a < (writesOf s i).memBase + (writesOf s i).memLen at below
  omega

/-- Settles O24: by the table the others leave the display. -/
theorem onlyClsAndSpriteReachTheDisplay : Obligations.OnlyClsAndSpriteReachTheDisplay := by
  intro i s t h changed
  cases i
  case cls => exact .inl rfl
  case sprite x y n => exact .inr ⟨x, y, n, rfl⟩
  all_goals exact absurd ((exec_frame h).display rfl) changed

/-- Settles O25: by the table only a call and a return reach the stack, and a return writes no entry. -/
theorem onlyCallAndReturnMoveTheStack : Obligations.OnlyCallAndReturnMoveTheStack := by
  intro i s t h
  cases i
  case jsr nnn =>
    refine ⟨fun moved => ?_, fun _ => ⟨nnn, rfl⟩⟩
    rcases execJsr_eq_next h with ⟨_, rfl⟩ | ⟨-, rfl⟩
    · exact .inl ⟨nnn, rfl, rfl⟩
    · exact absurd rfl moved
  case rts =>
    rcases execRts_eq_next h with ⟨live, rfl⟩ | ⟨-, rfl⟩
    · exact ⟨fun _ => .inr ⟨rfl, Nat.sub_add_cancel live⟩, fun changed => absurd rfl changed⟩
    · exact ⟨fun moved => absurd rfl moved, fun changed => absurd rfl changed⟩
  all_goals
    obtain ⟨sameSp, sameStack⟩ := (exec_frame h).callStack rfl
    exact ⟨fun moved => absurd sameSp moved, fun changed => absurd sameStack changed⟩

/-- Settles O26: a change of `V[15]` puts 15 among the registers of the table. -/
theorem flagRegisterIsWrittenOnlyAsListed : Obligations.FlagRegisterIsWrittenOnlyAsListed := by
  intro i s t h changed
  have listed : (15 : Reg) ∈ (writesOf s i).regs := by
    by_contra unlisted
    exact changed ((exec_frame h).regs 15 unlisted)
  cases i
  case addReg x y => exact .inl ⟨x, y, .inl rfl⟩
  case subReg x y => exact .inl ⟨x, y, .inr (.inl rfl)⟩
  case rsbReg x y => exact .inl ⟨x, y, .inr (.inr rfl)⟩
  case shr x => exact .inr (.inl ⟨x, .inl rfl⟩)
  case shl x => exact .inr (.inl ⟨x, .inr rfl⟩)
  case sprite x y n => exact .inr (.inr (.inl ⟨x, y, n, rfl⟩))
  case ldr x =>
    have top : x = 15 := Fin.last_le_iff.mp (by simpa [writesOf] using listed)
    simp [top]
  case movImm | addImm | rand | movReg | orReg | andReg | xorReg | gdelay =>
    obtain rfl := List.mem_singleton.mp listed
    simp
  all_goals exact absurd listed List.not_mem_nil

/-- Settles O27: by the table the others leave `I`. -/
theorem indexIsWrittenOnlyByIndexInstructions : Obligations.IndexIsWrittenOnlyByIndexInstructions := by
  intro i s t h changed
  cases i
  case mvi nnn => exact .inl ⟨nnn, rfl⟩
  case adi x => exact .inr ⟨x, .inl rfl⟩
  case font x => exact .inr ⟨x, .inr rfl⟩
  all_goals exact absurd ((exec_frame h).index rfl) changed

/-- Settles O28: by the table the others leave the timer, and each of the two writes the register. -/
theorem timersAreSetOnlyByTheirInstructions : Obligations.TimersAreSetOnlyByTheirInstructions := by
  intro i s t h
  refine ⟨fun changed => ?_, fun changed => ?_⟩
  · cases i
    case sdelay x =>
      cases h
      exact ⟨x, rfl, rfl⟩
    all_goals exact absurd ((exec_frame h).delay rfl) changed
  · cases i
    case ssound x =>
      cases h
      exact ⟨x, rfl, rfl⟩
    all_goals exact absurd ((exec_frame h).sound rfl) changed

/-- A skip that moves `PC` moves it by 2. -/
theorem skipIf_pc_of_ne {s : State} {c : Bool} (moved : (s.skipIf c).pc ≠ s.pc) : (s.skipIf c).pc = s.pc + 2 := by
  cases c
  · exact absurd rfl moved
  · rfl

/-- Settles O29: by the table only transfers and skips write `PC`. -/
theorem onlyTransfersAndSkipsMovePc : Obligations.OnlyTransfersAndSkipsMovePc := by
  intro i s t h moved
  cases i
  case rts => exact .inl (.inl rfl)
  case jmp nnn => exact .inl (.inr ⟨nnn, .inl rfl⟩)
  case jsr nnn => exact .inl (.inr ⟨nnn, .inr (.inl rfl)⟩)
  case jmi nnn => exact .inl (.inr ⟨nnn, .inr (.inr rfl)⟩)
  case skeqImm x nn => cases h; exact .inr ⟨skipIf_pc_of_ne moved, .inl ⟨x, nn, .inl rfl⟩⟩
  case skneImm x nn => cases h; exact .inr ⟨skipIf_pc_of_ne moved, .inl ⟨x, nn, .inr rfl⟩⟩
  case skeqReg x y => cases h; exact .inr ⟨skipIf_pc_of_ne moved, .inr (.inl ⟨x, y, .inl rfl⟩)⟩
  case skneReg x y => cases h; exact .inr ⟨skipIf_pc_of_ne moved, .inr (.inl ⟨x, y, .inr rfl⟩)⟩
  case skpr x => cases h; exact .inr ⟨skipIf_pc_of_ne moved, .inr (.inr ⟨x, .inl rfl⟩)⟩
  case skup x => cases h; exact .inr ⟨skipIf_pc_of_ne moved, .inr (.inr ⟨x, .inr rfl⟩)⟩
  all_goals exact absurd ((exec_frame h).pc rfl) moved

end Sys2Proof.Machine
end

section
/-! SUPPORT. The events of the host, one step each: the ways a cycle runs or ends (40_dispatcher_cycle.md R101 to R108,
30_encoding.md R78, 60_exceptions.md R212, R215), the idle machine (R109, R224), the Timer Clock and the reset. -/

namespace Sys2Proof.Machine

/-! ## A cycle of a running machine -/

/-- A cycle that fetches inside memory goes on with the opcode read there. -/
theorem step_of_fetch_inside {s : State} (running : s.status = .running) (cycle : CycleIsNext s)
    (inside : s.pc.toNat + 1 < 4096) :
    step s = runOpcode s.pc (opcodeOfBytes (s.readByte s.pc.toNat) (s.readByte (s.pc.toNat + 1)))
      s.eventTaken.advancePc := by
  rw [step_of_cycle cycle, cycleEvent_running (s := s.eventTaken) running, runCycle,
    fetch_inside (s := s.eventTaken) inside]
  rfl

/-- A cycle that fetches a decodable opcode runs its handler. -/
theorem step_of_decoded {s t : State} {i : Instr} (running : s.status = .running) (cycle : CycleIsNext s)
    (inside : s.pc.toNat + 1 < 4096)
    (decodes : decodeBytes [s.readByte s.pc.toNat, s.readByte (s.pc.toNat + 1)] = .ok (i, []))
    (answer : exec i s.eventTaken.advancePc = .next t) : step s = afterHandler s.pc i (.next t) := by
  obtain ⟨decoded, -⟩ := decodeBytes_cons_cons_eq_ok.mp decodes
  rw [step_of_fetch_inside running cycle inside, runOpcode, decoded, ← answer]

/-- Settles O7: what the step does after the handler depends on `STATUS` alone. -/
theorem stepRunsTheDecodedInstruction : Obligations.StepRunsTheDecodedInstruction := by
  intro s i running cycle inside decodes t answer
  rw [step_of_decoded running cycle inside decodes answer]
  exact ⟨afterHandler_running, afterHandler_idle⟩

/-- Settles O8: the fetch gives nothing, and the halt comes before the advance of `PC`. -/
theorem fetchPastTheEndHalts : Obligations.FetchPastTheEndHalts := by
  intro s running cycle outside
  refine ⟨raiseHalt .fetchRange s.pc s.eventTaken, ?_, rfl, rfl, frame_raiseHalt _ _ _⟩
  rw [step_of_cycle cycle, cycleEvent_running (s := s.eventTaken) running, runCycle,
    fetch_outside (s := s.eventTaken) (Nat.succ_le_succ outside)]
  rfl

/-- The advance of `PC` is the only change before the opcode is looked at (40_dispatcher_cycle.md R103). -/
theorem frame_advancePc (s : State) : Frame { pc := true } s s.advancePc := frame_setPc s _

theorem Frame.raiseHalt {w : Writes} {s t : State} (frame : Frame w s t) (reason : HaltReason) (addr : Word) :
    Frame { w with status := true, trace := true } s (raiseHalt reason addr t) :=
  (frame.setStatus (.halted reason addr)).report (some (.halted reason addr))

/-- Settles O9: the halt comes after the advance of `PC`. -/
theorem decodeFailureHalts : Obligations.DecodeFailureHalts := by
  intro s op running cycle inside hop invalid notSkipped
  refine ⟨raiseHalt .decodeFailure s.pc s.eventTaken.advancePc, ?_, rfl, rfl, rfl,
    (frame_advancePc s.eventTaken).raiseHalt _ _⟩
  rw [step_of_fetch_inside running cycle inside, ← hop, runOpcode, invalid]
  exact if_neg (Bool.eq_false_iff.mp notSkipped)

/-- A skipped opcode leaves `PC` after it, so its report is no flow break (40_dispatcher_cycle.md R106). -/
theorem finishSkipped_advancePc_trace (op : Word) (s : State) :
    (finishSkipped s.pc op s.advancePc).trace =
      some (.skipped s.pc op false { v := s.v, pc := s.pc + 2, i := s.i, sp := s.sp }) := by
  have noBreak : flowBreak s.pc s.advancePc = false := by simp [flowBreak]
  rw [finishSkipped_trace, noBreak]
  rfl

/-- Settles O10: the step is the report and the completion of the cycle. -/
theorem skippedOpcodeOnlyCompletes : Obligations.SkippedOpcodeOnlyCompletes := by
  intro s op running cycle inside hop invalid skipped
  have answer : step s = .next (finishSkipped s.pc op s.eventTaken.advancePc) := by
    rw [step_of_fetch_inside running cycle inside, ← hop, runOpcode, invalid]
    exact if_pos skipped
  obtain ⟨external, divided⟩ := clockAdvanced_finishSkipped s.pc op s.eventTaken.advancePc
  exact ⟨_, answer, finishSkipped_pc _ _ _, finishSkipped_advancePc_trace op s.eventTaken, external, divided,
    ((frame_advancePc s.eventTaken).report _).completeCycle⟩

/-! ## The idle machine -/

theorem keyEvent_of_not_waiting {s : State} (k : BitVec 4) (notWaiting : ∀ x, s.status ≠ .waiting x) :
    keyEvent k s = s := by
  unfold keyEvent
  cases hs : s.status with
  | waiting x => exact absurd hs (notWaiting x)
  | running => rfl
  | halted r a => rfl

/-- An idle machine only takes a `Cycle` or a `Tick` (40_dispatcher_cycle.md R101, 60_exceptions.md R224). -/
theorem step_of_idle {s : State} (idle : s.status ≠ .running)
    (event : CycleIsNext s ∨ s.inbox.head? = some .tick) : step s = .next s.eventTaken := by
  rcases event with cycle | tick
  · rw [step_of_cycle cycle, cycleEvent_idle (s := s.eventTaken) idle]
  · rw [step_of_head tick, hostEvent, tickEvent_idle (s := s.eventTaken) idle]

/-- A machine that is not waiting only takes a `KeyResolved` (40_dispatcher_cycle.md R109). -/
theorem step_of_unexpected_key {s : State} {k : BitVec 4} (key : s.inbox.head? = some (.keyResolved k))
    (notWaiting : ∀ x, s.status ≠ .waiting x) : step s = .next s.eventTaken := by
  rw [step_of_head key, hostEvent, keyEvent_of_not_waiting (s := s.eventTaken) k notWaiting]

/-- Settles O11: the two cases of an event that the idle machine only takes. -/
theorem idleMachineIgnoresEvents : Obligations.IdleMachineIgnoresEvents :=
  fun _ => ⟨step_of_idle, fun _ => step_of_unexpected_key⟩

theorem haltedPort_eq_true_iff {s : State} : s.haltedPort = true ↔ ∃ r a, s.status = .halted r a := by
  unfold State.haltedPort
  cases s.status <;> simp

/-- A halted machine only takes any event but `Reset`. -/
theorem step_of_halted {s : State} (halted : s.haltedPort = true) (noReset : ∀ rom, .reset rom ∉ s.inbox) :
    step s = .next s.eventTaken := by
  obtain ⟨r, a, status⟩ := haltedPort_eq_true_iff.mp halted
  have idle : s.status ≠ .running := by rw [status]; nofun
  have notWaiting : ∀ x, s.status ≠ .waiting x := by rw [status]; nofun
  cases inbox : s.inbox with
  | nil => exact step_of_idle idle (.inl (.inl inbox))
  | cons e rest =>
    have head : s.inbox.head? = some e := by rw [inbox, List.head?_cons]
    cases e with
    | reset rom => exact absurd (List.mem_of_head? head) (noReset rom)
    | cycle => exact step_of_idle idle (.inl (.inr head))
    | tick => exact step_of_idle idle (.inr head)
    | keyResolved k => exact step_of_unexpected_key head notWaiting

/-- Settles O12, by induction on the number of steps; a halted state stays halted when its event is taken. -/
theorem haltedMachineNeverMoves : Obligations.HaltedMachineNeverMoves := by
  intro n
  induction n with
  | zero => exact fun s _ _ => rfl
  | succ n ih =>
    intro s halted noReset
    rw [core_run_succ n (step_of_halted halted noReset),
      ih s.eventTaken halted fun rom later => noReset rom (List.mem_of_mem_tail later), eventTaken_inbox,
      List.drop_tail]
    rfl

/-! ## The Timer Clock -/

theorem frame_tick (s : State) : Frame { delay := true, sound := true, beeps := true } s (tick s) := by
  constructor
  case delay | sound | beeps => nofun
  case callStack => exact fun _ => ⟨rfl, rfl⟩
  all_goals (intros; rfl)

theorem tickEvent_external_running {s : State} (external : s.params.timerMode = .external)
    (running : s.status = .running) : tickEvent s = tick s := by
  rw [tickEvent, external, running]

theorem tickEvent_divided {s : State} (divided : s.params.timerMode = .divided) : tickEvent s = s := by
  rw [tickEvent, divided]

theorem tick_beeps_eq_add (s : State) : (tick s).beeps = s.beeps + (if s.st.toNat = 1 then 1 else 0) := by
  by_cases one : s.st.toNat = 1
  · rw [(tick_of_st_one one).1, if_pos one]
  · rw [tick_beeps_of_st_ne_one one, if_neg one, Nat.add_zero]

/-- Settles O18: the event is the tick, or nothing in a machine that is not running. -/
theorem tickCountsBothTimersDown : Obligations.TickCountsBothTimersDown := by
  intro s head external
  refine ⟨fun running => ?_, fun idle => step_of_idle idle (.inr head)⟩
  refine ⟨tick s.eventTaken, ?_, toNat_countDown _, toNat_countDown _, tick_beeps_eq_add _, frame_tick _⟩
  rw [step_of_head head, hostEvent, tickEvent_external_running (s := s.eventTaken) external running]

/-- Settles O19: the tick event leaves the state in `DIVIDED` mode. -/
theorem dividedModeHasNoTickInput : Obligations.DividedModeHasNoTickInput := by
  intro s tick divided
  rw [step_of_head tick, hostEvent, tickEvent_divided (s := s.eventTaken) divided]

theorem iterate_completeCycle_params (n : Nat) (s : State) : (completeCycle^[n] s).params = s.params := by
  induction n with
  | zero => rfl
  | succ n ih => rw [Function.iterate_succ_apply', completeCycle_params, ih]

/-- The clock after `n` completed cycles: the divider has gone round `(CYC + n) / 5` times, a tick each. -/
theorem iterate_completeCycle_divided {s : State} (divided : s.params.timerMode = .divided) (n : Nat) :
    (completeCycle^[n] s).cyc.val = (s.cyc.val + n) % 5 ∧
    (completeCycle^[n] s).dt.toNat = s.dt.toNat - (s.cyc.val + n) / 5 ∧
    (completeCycle^[n] s).st.toNat = s.st.toNat - (s.cyc.val + n) / 5 := by
  have phase := s.cyc.isLt
  induction n with
  | zero => exact ⟨(Nat.mod_eq_of_lt phase).symm, by simp; omega, by simp; omega⟩
  | succ n ih =>
    obtain ⟨cyc, dt, st⟩ := ih
    have mode : (completeCycle^[n] s).params.timerMode = .divided := by rw [iterate_completeCycle_params, divided]
    obtain ⟨cyc', dt', st', -⟩ := completeCycle_divided_fields mode
    rw [Function.iterate_succ_apply', cyc', dt', st', cyc, dt, st]
    refine ⟨by omega, ?_, ?_⟩ <;> split <;> omega

/-- Settles O21: the clock after `n` cycles, by induction, and the mode in which a cycle does nothing. -/
theorem everyFifthCompletedCycleTicks : Obligations.EveryFifthCompletedCycleTicks :=
  ⟨fun n _ divided => iterate_completeCycle_divided divided n, fun _ => completeCycle_external⟩

/-- Settles O22: the timer is 0 once as many ticks have come as it had units. -/
theorem delayRunsOutAtTheKthCycle : Obligations.DelayRunsOutAtTheKthCycle := by
  intro s n divided set
  have phase := s.cyc.isLt
  obtain ⟨-, dt, -⟩ := iterate_completeCycle_divided divided n
  have zero : (0 : Byte).toNat = 0 := rfl
  rw [← BitVec.toNat_inj, dt, zero]
  omega

/-! ## Reset -/

/-- Settles O16: the reset event refuses the image. -/
theorem resetRefusesALongImage : Obligations.ResetRefusesALongImage := by
  intro s rom rest inbox long
  rw [step_of_head (by rw [inbox, List.head?_cons]), hostEvent, applyReset_tooLong long]

/-- Past the font every byte is 0 before a program is loaded (20_memory.md R51). -/
theorem Memory.initial_of_font_le {a : Nat} (h : 80 ≤ a) : Memory.initial a = 0 :=
  List.getD_eq_default fontBytes 0 h

/-- The image stands in a range of memory (70_reset_and_hazards.md R251). -/
theorem rom_inside {rom : List Byte} (fits : rom.length ≤ 3584) : Config.progBase + rom.length ≤ Config.memSize := by
  simp only [Config.progBase, Config.memSize]
  omega

theorem Memory.read_loadRom_inside {rom : List Byte} (fits : rom.length ≤ 3584) {j : Nat} (h : j < rom.length) :
    Memory.read (Memory.loadRom rom) (Config.progBase + j) = rom[j] := by
  rw [Memory.loadRom, Memory.read_writeBytes Memory.wf_nil (rom_inside fits), dif_pos (by omega)]
  simp only [Nat.add_sub_cancel_left]

/-- The other addresses keep the reset contents (70_reset_and_hazards.md R250). -/
theorem Memory.read_loadRom_outside {rom : List Byte} {a : Nat}
    (h : a < Config.progBase ∨ Config.progBase + rom.length ≤ a) :
    Memory.read (Memory.loadRom rom) a = Memory.initial a :=
  Memory.read_writeBytes_outside [] (by omega)

theorem getV_reset (r : Reg) : State.reset.getV r = 0 := Vector.getElem_replicate _

theorem reset_stack (j : Fin 16) : State.reset.stack[j] = 0 := Vector.getElem_replicate _

/-- Settles O15: the fields are those of the reset state, but for the memory, which holds the image. -/
theorem resetBuildsTheStateFromTheImage : Obligations.ResetBuildsTheStateFromTheImage := by
  intro s rom rest inbox fits
  have head : s.inbox.head? = some (.reset rom) := by rw [inbox, List.head?_cons]
  have answer := (step_of_head head).trans (applyReset_fits fits s.eventTaken)
  refine ⟨_, answer, getV_reset, rfl, rfl, rfl, reset_stack, rfl, rfl, rfl, rfl, rfl, rfl,
    fun j h => ?image, fun a h => ?font, fun a h => ?zero, rfl, rfl, ?inbox, rfl⟩
  case image => exact Memory.read_loadRom_inside fits h
  case font => exact Memory.read_loadRom_outside (.inl h)
  case zero =>
    have pastFont : 80 ≤ a := by omega
    exact (Memory.read_loadRom_outside (.inr h)).trans (Memory.initial_of_font_le pastFont)
  case inbox => rw [eventTaken_inbox, inbox, List.tail_cons]

/-- Settles O17: the reset memory lists no cell, so it reads as the font and zeros. -/
theorem resetStateHoldsTheStatedValues : Obligations.ResetStateHoldsTheStatedValues :=
  ⟨getV_reset, rfl, rfl, rfl, reset_stack, rfl, rfl, by decide, fun _ => Memory.initial_of_font_le, rfl, rfl, rfl, rfl⟩

end Sys2Proof.Machine
end

section
/-! SUPPORT. The invariant of a step: the part on the values of the state, kept by every handler, and the part on
`STATUS`, read off the way a cycle or an event ends. -/

namespace Sys2Proof.Machine

/-! ## The part of the invariant that does not speak of `STATUS` -/

/-- Memory, display, `PC` and return addresses are in form and in range. -/
structure InRange (s : State) : Prop where
  memory : Memory.wf s.mem
  display : fbWf s.fb
  pixels : ∀ p ∈ s.fb, normPixel s.params.displayNorm p = some p ∧ p.x ≤ 262 ∧ p.y ≤ 270
  pcRange : s.pc.toNat ≤ 0x10FE
  returnAddresses : ∀ j : Fin 16, s.stack[j].toNat ≤ 0x1000

theorem StepInvariant.inRange {s : State} (inv : StepInvariant s) : InRange s :=
  ⟨inv.memory, inv.display, inv.pixels, inv.pcRange, inv.returnAddresses⟩

/-- A state with the same values and another `PC` in range is in range. -/
theorem InRange.congr {s t : State} (h : InRange s) (mem : t.mem = s.mem) (fb : t.fb = s.fb)
    (params : t.params = s.params) (stack : t.stack = s.stack) (pc : t.pc.toNat ≤ 0x10FE) : InRange t := by
  obtain ⟨memory, display, pixels, -, returnAddresses⟩ := h
  refine ⟨?_, ?_, ?_, pc, ?_⟩
  · rwa [mem]
  · rwa [fb]
  · rwa [fb, params]
  · rwa [stack]

/-- A running machine has nothing suspended and no halt to report. -/
theorem InRange.invariant_of_running {s : State} (h : InRange s) (running : s.status = .running) : StepInvariant s := by
  obtain ⟨memory, display, pixels, pcRange, returnAddresses⟩ := h
  refine ⟨memory, display, pixels, pcRange, returnAddresses, fun x waiting => ?_, fun r a halted => ?_⟩
  · rw [running] at waiting; cases waiting
  · rw [running] at halted; cases halted

/-- A halt reports itself. -/
theorem InRange.invariant_raiseHalt {s : State} (h : InRange s) (r : HaltReason) (a : Word) :
    StepInvariant (raiseHalt r a s) := by
  obtain ⟨memory, display, pixels, pcRange, returnAddresses⟩ := h
  refine ⟨memory, display, pixels, pcRange, returnAddresses, nofun, fun r' a' halted => ?_⟩
  rw [raiseHalt_status] at halted
  rw [raiseHalt_trace]
  cases halted
  rfl

/-- The invariant does not speak of the registers, `I`, `SP`, the timers, the divider, the pulses, the inbox and the
count of answers. -/
theorem StepInvariant.congr {s t : State} (inv : StepInvariant s) (mem : t.mem = s.mem) (fb : t.fb = s.fb)
    (params : t.params = s.params) (stack : t.stack = s.stack) (pc : t.pc = s.pc) (status : t.status = s.status)
    (trace : t.trace = s.trace) : StepInvariant t := by
  obtain ⟨memory, display, pixels, pcRange, returnAddresses⟩ :=
    inv.inRange.congr mem fb params stack (pc ▸ inv.pcRange)
  refine ⟨memory, display, pixels, pcRange, returnAddresses, fun x waiting => ?_, fun r a halted => ?_⟩
  · simpa only [State.ia, State.readByte, mem, pc] using inv.suspended x (status ▸ waiting)
  · rw [trace]
    exact inv.diagnostic r a (status ▸ halted)

/-! ## What a handler does to the values -/

/-- A handler leaves memory, or writes a run of bytes inside it (20_memory.md R57, R58). -/
theorem exec_memory {i : Instr} {s t : State} (h : exec i s = .next t) :
    t.mem = s.mem ∨
      ∃ bs, s.i.toNat + bs.length ≤ Config.memSize ∧ t.mem = Memory.writeBytes s.mem s.i.toNat bs := by
  cases i
  case jsr nnn => rcases execJsr_eq_next h with ⟨_, rfl⟩ | ⟨_, rfl⟩ <;> exact .inl rfl
  case rts => rcases execRts_eq_next h with ⟨_, rfl⟩ | ⟨_, rfl⟩ <;> exact .inl rfl
  case bcd | str =>
    rcases store_eq_next h with ⟨inside, rfl⟩ | ⟨_, rfl⟩
    · exact .inr ⟨_, inside, rfl⟩
    · exact .inl rfl
  case ldr x =>
    rcases load_eq_next h with ⟨_, rfl⟩ | ⟨_, rfl⟩
    · exact .inl (loadRegs_mem s 0 _)
    · exact .inl rfl
  case sprite x y n => rcases load_eq_next h with ⟨_, rfl⟩ | ⟨_, rfl⟩ <;> exact .inl rfl
  all_goals (cases h; exact .inl rfl)

theorem exec_keeps_memory_wf {i : Instr} {s t : State} (h : exec i s = .next t) (wf : Memory.wf s.mem) :
    Memory.wf t.mem := by
  rcases exec_memory h with same | ⟨bs, inside, written⟩
  · rwa [same]
  · rw [written]
    exact Memory.wf_writeBytes wf inside

/-- The display lowers a coordinate or leaves it (44_display.md R184). -/
theorem normPixel_le {mode : Config.DisplayNorm} {p q : Pixel} (h : normPixel mode p = some q) :
    q.x ≤ p.x ∧ q.y ≤ p.y := by
  cases mode with
  | store =>
    cases h
    exact ⟨Nat.le_refl _, Nat.le_refl _⟩
  | wrap =>
    cases h
    exact ⟨Nat.mod_le _ _, Nat.mod_le _ _⟩
  | clip =>
    rw [normPixel] at h
    split at h <;> cases h
    exact ⟨Nat.le_refl _, Nat.le_refl _⟩

/-- A pixel a sprite can turn on is one the display could have stored (20_memory.md R65). -/
theorem SpriteCovers.bounds {x y : Reg} {n : Nat} {s : State} {q : Pixel} (covered : SpriteCovers x y n s q)
    (rows : n ≤ 16) : normPixel s.params.displayNorm q = some q ∧ q.x ≤ 262 ∧ q.y ≤ 270 := by
  obtain ⟨r, c, hr, hc, -, taken⟩ := covered
  have hx := (s.getV x).isLt
  have hy := (s.getV y).isLt
  obtain ⟨lex, ley⟩ := normPixel_le taken
  simp only at lex ley
  exact ⟨normPixel_idem taken, by omega, by omega⟩

/-- Drawing a sprite keeps the display in form and in range. -/
theorem InRange.drawSprite {s : State} (h : InRange s) (x y : Reg) {n : Nat} (rows : n ≤ 16) :
    InRange (drawSprite x y (Memory.readBytes s.mem s.i.toNat n) s) := by
  obtain ⟨memory, display, pixels, pcRange, returnAddresses⟩ := h
  refine ⟨memory, fbWf_drawPixels display, fun q lit => ?_, pcRange, returnAddresses⟩
  by_cases before : q ∈ s.fb
  · exact pixels q before
  · exact (((mem_drawSprite_fb x y s rows q).mp lit).mpr before).bounds rows

/-- Where a handler that runs after a fetch can leave `PC` (10_state.md R23): a return address, a 12-bit target, a
12-bit base and a byte, or two past the next instruction. -/
theorem exec_pc_le {i : Instr} {s t : State} (h : exec i s = .next t) (fetched : s.pc.toNat ≤ 0x1000)
    (returnAddresses : ∀ j : Fin 16, s.stack[j].toNat ≤ 0x1000) : t.pc.toNat ≤ 0x10FE := by
  by_cases stays : t.pc = s.pc
  · rw [stays]
    omega
  have target (nnn : BitVec 12) : (zextNNN nnn).toNat < 4096 := (toNat_zextNNN nnn).trans_lt nnn.isLt
  rcases onlyTransfersAndSkipsMovePc i s t h stays with (rfl | ⟨nnn, rfl | rfl | rfl⟩) | ⟨skipped, -⟩
  · rcases execRts_eq_next h with ⟨live, rfl⟩ | ⟨-, rfl⟩
    · have := s.sp.isLt
      have popped : s.stack[s.sp.val - 1].toNat ≤ 0x1000 := returnAddresses ⟨s.sp.val - 1, by omega⟩
      exact popped.trans (by decide)
    · exact absurd rfl stays
  · cases h
    have := target nnn
    simp only
    omega
  · rcases execJsr_eq_next h with ⟨_, rfl⟩ | ⟨-, rfl⟩
    · have := target nnn
      simp only
      omega
    · exact absurd rfl stays
  · obtain ⟨u, answer, sum, -⟩ := jmiJumpsIndexedByV0.2 nnn s
    obtain rfl : u = t := by rw [h] at answer; cases answer; rfl
    have := nnn.isLt
    have := (s.getV 0).isLt
    omega
  · rw [skipped, BitVec.toNat_add]
    have two : (2 : Word).toNat = 2 := rfl
    omega

/-- A call puts the address after a fetched instruction on the stack; nothing else does (41_control_flow.md R121). -/
theorem exec_returnAddresses {i : Instr} {s t : State} (h : exec i s = .next t) (fetched : s.pc.toNat ≤ 0x1000)
    (returnAddresses : ∀ j : Fin 16, s.stack[j].toNat ≤ 0x1000) (j : Fin 16) : t.stack[j].toNat ≤ 0x1000 := by
  by_cases same : t.stack = s.stack
  · rw [same]
    exact returnAddresses j
  obtain ⟨nnn, rfl⟩ := (onlyCallAndReturnMoveTheStack i s t h).2 same
  rcases execJsr_eq_next h with ⟨room, rfl⟩ | ⟨-, rfl⟩
  · simp only [Fin.getElem_fin, Vector.getElem_set]
    split
    · exact fetched
    · exact returnAddresses j
  · exact absurd rfl same

/-- Every handler keeps the values in range when it runs after a fetch, with `PC` at most 0x1000. -/
theorem exec_inRange {i : Instr} {s t : State} (h : exec i s = .next t) (inRange : InRange s)
    (fetched : s.pc.toNat ≤ 0x1000) : InRange t := by
  obtain ⟨params, -, -⟩ := exec_untouched h
  have memory := exec_keeps_memory_wf h inRange.memory
  have pc := exec_pc_le h fetched inRange.returnAddresses
  have stack := exec_returnAddresses h fetched inRange.returnAddresses
  by_cases same : t.fb = s.fb
  · exact ⟨memory, same ▸ inRange.display, by rw [same, params]; exact inRange.pixels, pc, stack⟩
  rcases onlyClsAndSpriteReachTheDisplay i s t h same with rfl | ⟨x, y, n, rfl⟩
  · cases h
    exact ⟨memory, List.Pairwise.nil, List.forall_mem_nil _, pc, stack⟩
  · rcases load_eq_next h with ⟨_, rfl⟩ | ⟨_, rfl⟩
    · exact inRange.drawSprite x y (spriteRows_bounds n).2
    · exact absurd rfl same

/-! ## A cycle keeps the invariant -/

/-- The address advanced past a fetch is at most 0x1000 (40_dispatcher_cycle.md R102, R103). -/
theorem advancePc_pc_le {s : State} (inside : s.pc.toNat + 1 < 4096) : s.advancePc.pc.toNat ≤ 0x1000 := by
  have two : (2 : Word).toNat = 2 := rfl
  rw [advancePc_pc, BitVec.toNat_add]
  omega

/-- A handler run after the fetch of its instruction keeps the invariant: if it suspends it is the `key` at `PC - 2`,
and if it halts it has reported that. -/
theorem exec_invariant {op : Word} {i : Instr} {s t : State} (running : s.status = .running) (inRange : InRange s)
    (fetched : fetch s = some op) (decoded : decodeWord op = .ok i) (h : exec i s.advancePc = .next t) :
    StepInvariant t := by
  obtain ⟨inside, hop⟩ := fetch_eq_some fetched
  have advanced : InRange s.advancePc :=
    inRange.congr rfl rfl rfl rfl ((advancePc_pc_le inside).trans (by decide))
  rcases exec_status h with same | ⟨x, rfl, -⟩ | ⟨r, -, rfl⟩
  · exact (exec_inRange h advanced (advancePc_pc_le inside)).invariant_of_running (same.trans running)
  · have ia : s.advancePc.ia = s.pc := by simp [State.ia]
    cases h
    obtain ⟨memory, display, pixels, pcRange, returnAddresses⟩ := advanced
    refine ⟨memory, display, pixels, pcRange, returnAddresses, fun x' waiting => ?_, nofun⟩
    cases waiting
    have here : s.pc.toNat + 1 < Config.memSize ∧
        decodeWord (opcodeOfBytes (s.readByte s.pc.toNat) (s.readByte (s.pc.toNat + 1))) = .ok (.key x) :=
      ⟨inside, hop ▸ decoded⟩
    rw [← ia] at here
    exact here
  · exact advanced.invariant_raiseHalt r _

/-- Report and divider touch none of the values. -/
theorem InRange.finishExecuted {s : State} (h : InRange s) (ia : Word) (i : Instr) : InRange (finishExecuted ia i s) :=
  h.congr (finishExecuted_mem ia i s) (finishExecuted_fb ia i s) (finishExecuted_params ia i s)
    (finishExecuted_stack ia i s) (by rw [finishExecuted_pc]; exact h.pcRange)

theorem InRange.finishSkipped {s : State} (h : InRange s) (ia op : Word) : InRange (finishSkipped ia op s) :=
  h.congr (finishSkipped_mem ia op s) (finishSkipped_fb ia op s) (finishSkipped_params ia op s)
    (finishSkipped_stack ia op s) (by rw [finishSkipped_pc]; exact h.pcRange)

theorem runCycle_invariant {s t : State} (inv : StepInvariant s) (running : s.status = .running)
    (h : runCycle s = .next t) : StepInvariant t := by
  rcases runCycle_eq_next h with rfl | ⟨op, fetched, hend⟩
  · exact inv.inRange.invariant_raiseHalt _ _
  have advanced : InRange s.advancePc :=
    inv.inRange.congr rfl rfl rfl rfl ((advancePc_pc_le (fetch_eq_some fetched).1).trans (by decide))
  rcases hend with rfl | rfl | ⟨i, u, decoded, hu, hend⟩
  · exact advanced.invariant_raiseHalt _ _
  · exact (advanced.finishSkipped s.pc op).invariant_of_running ((finishSkipped_status _ _ _).trans running)
  · have handled := exec_invariant running inv.inRange fetched decoded hu
    rcases hend with ⟨completed, rfl⟩ | ⟨-, rfl⟩
    · exact (handled.inRange.finishExecuted s.pc i).invariant_of_running ((finishExecuted_status _ _ _).trans completed)
    · exact handled

/-! ## The events of the host -/

theorem cycleEvent_invariant {s t : State} (inv : StepInvariant s) (h : cycleEvent s = .next t) : StepInvariant t := by
  by_cases running : s.status = .running
  · rw [cycleEvent_running running] at h
    exact runCycle_invariant inv running h
  · rw [cycleEvent_idle running] at h
    cases h
    exact inv

theorem tickEvent_invariant {s : State} (inv : StepInvariant s) : StepInvariant (tickEvent s) := by
  unfold tickEvent
  split
  · exact inv.congr rfl rfl rfl rfl rfl rfl rfl
  all_goals exact inv

/-- A resolved key leaves the machine running with the values it had while suspended (45_keys_timers.md R192). -/
theorem keyEvent_invariant {s : State} (inv : StepInvariant s) (k : BitVec 4) : StepInvariant (keyEvent k s) := by
  unfold keyEvent
  split
  · rename_i x waiting
    have resumed : InRange { s.setV x (k.setWidth 8) with status := .running } :=
      inv.inRange.congr rfl rfl rfl rfl inv.pcRange
    exact (resumed.finishExecuted s.ia (.key x)).invariant_of_running (finishExecuted_status _ _ _)
  all_goals exact inv

/-- The state built from an image that fits is in range, whatever the parameters. -/
theorem applyReset_invariant {rom : List Byte} {s t : State} (h : applyReset rom s = .next t) : StepInvariant t := by
  rcases Nat.lt_or_ge 3584 rom.length with long | fits
  · rw [applyReset_tooLong long] at h
    cases h
  · rw [applyReset_fits fits] at h
    cases h
    have start : State.reset.pc.toNat ≤ 0x10FE := by decide
    have stack (j : Fin 16) : State.reset.stack[j].toNat ≤ 0x1000 := by rw [reset_stack]; decide
    exact InRange.invariant_of_running
      ⟨Memory.wf_loadRom fits, List.Pairwise.nil, List.forall_mem_nil _, start, stack⟩ rfl

/-- Settles O30: the reset state is the one built from the empty image. -/
theorem invariantHoldsAtReset : Obligations.InvariantHoldsAtReset :=
  applyReset_invariant (rom := []) (s := State.reset) rfl

theorem hostEvent_invariant {e : HostEvent} {s t : State} (inv : StepInvariant s) (h : hostEvent e s = .next t) :
    StepInvariant t := by
  cases e with
  | reset rom => exact applyReset_invariant h
  | cycle => exact cycleEvent_invariant inv h
  | tick => cases h; exact tickEvent_invariant inv
  | keyResolved k => cases h; exact keyEvent_invariant inv k

/-- Settles O31, by cases on the event of the step; taking the event leaves the invariant too. -/
theorem everyStepKeepsTheInvariant : Obligations.EveryStepKeepsTheInvariant := by
  intro s t inv h
  rcases step_cases s with ⟨-, hstep⟩ | ⟨e, rest, -, hstep⟩ <;> rw [hstep] at h
  · exact cycleEvent_invariant inv h
  · exact hostEvent_invariant (s := s.eventTaken) (inv.congr rfl rfl rfl rfl rfl rfl rfl) h

end Sys2Proof.Machine
end

section
/-! SUPPORT. Statements about several steps or draws: the call and its return (95_test_vectors.md W5), a sprite drawn
twice (W3), and a stored byte fetched (20_memory.md R62). -/

namespace Sys2Proof.Machine

/-! ## A call and its return (41_control_flow.md R121, R122) -/

/-- A decoded instruction whose handler completes is followed by report and divider. -/
theorem step_of_completed {s t : State} {i : Instr} (running : s.status = .running) (cycle : CycleIsNext s)
    (inside : s.pc.toNat + 1 < 4096)
    (decodes : decodeBytes [s.readByte s.pc.toNat, s.readByte (s.pc.toNat + 1)] = .ok (i, []))
    (answer : exec i s.eventTaken.advancePc = .next t) (completed : t.status = .running) :
    step s = .next (finishExecuted s.pc i t) :=
  (step_of_decoded running cycle inside decodes answer).trans (afterHandler_running completed)

/-- The state in which the handler of a call with room leaves the machine. -/
def called (nnn : BitVec 12) (s : State) (room : s.sp.val < 16) : State :=
  { s with pc := zextNNN nnn, sp := ⟨s.sp.val + 1, by omega⟩, stack := s.stack.set s.sp.val s.pc }

/-- The return of a call comes back to the pushed address, whatever happened to the rest of the state. -/
theorem exec_rts_of_called {s t : State} (room : s.sp.val < 16) (sp : t.sp.val = s.sp.val + 1)
    (stack : t.stack = s.stack.set s.sp.val s.pc) :
    exec .rts t = .next { t with pc := s.pc, sp := s.sp } := by
  have live : 0 < t.sp.val := by omega
  have popped : t.stack[t.sp.val - 1] = s.pc := by
    simp only [stack, sp, Nat.add_sub_cancel, Vector.getElem_set_self]
  have back : (⟨t.sp.val - 1, by omega⟩ : Fin 17) = s.sp := Fin.ext (by simp only [sp, Nat.add_sub_cancel])
  rw [exec_rts_of_live live, popped, back]

/-- Settles O35: the first step pushes the address after the call, the second pops it. -/
theorem subroutineRoundTrip : Obligations.SubroutineRoundTrip := by
  intro s nnn running inbox room inside insideTarget decodesCall decodesReturn
  let t := finishExecuted s.pc (.jsr nnn) (called nnn s.eventTaken.advancePc room)
  have callStep : step s = .next t :=
    step_of_completed running (.inl inbox) inside decodesCall
      (exec_jsr_of_room nnn (s := s.eventTaken.advancePc) room) running
  have target : t.pc.toNat = nnn.toNat := (congrArg BitVec.toNat (finishExecuted_pc _ _ _)).trans (toNat_zextNNN nnn)
  have depth : t.sp.val = s.sp.val + 1 := congrArg Fin.val (finishExecuted_sp _ _ _)
  have mem : t.mem = s.mem := finishExecuted_mem _ _ _
  have resumed : t.status = .running := (finishExecuted_status _ _ _).trans running
  have noEvent : t.inbox = [] := (finishExecuted_inbox _ _ _).trans (congrArg List.tail inbox)
  have returned := exec_rts_of_called (s := s.eventTaken.advancePc) (t := t.eventTaken.advancePc) room depth
    (finishExecuted_stack _ _ _)
  have returnStep := step_of_completed resumed (.inl noEvent) (by omega)
    (by simpa only [State.readByte, mem, target] using decodesReturn) returned resumed
  refine ⟨t, _, callStep, returnStep, target, depth, finishExecuted_pc _ _ _, finishExecuted_sp _ _ _,
    (finishExecuted_status _ _ _).trans resumed, getV_congr ?_, fun a => congrArg (Memory.read · a) ?_⟩
  · exact (finishExecuted_v _ _ _).trans (finishExecuted_v _ _ _)
  · exact (finishExecuted_mem _ _ _).trans mem

/-! ## A sprite drawn twice (44_display.md R182, R184) -/

/-- A draw leaves what the next draw of the same sprite reads, if its coordinates are not in VF. -/
theorem spriteCovers_drawSprite {x y : Reg} {n : Nat} {bytes : List Byte} {s : State} {q : Pixel} (hx : x ≠ VF)
    (hy : y ≠ VF) :
    SpriteCovers x y n (drawSprite x y bytes s) q ↔ SpriteCovers x y n s q := by
  have sameX : (drawSprite x y bytes s).getV x = s.getV x := getV_setV_other _ VF x _ hx
  have sameY : (drawSprite x y bytes s).getV y = s.getV y := getV_setV_other _ VF y _ hy
  simp only [SpriteCovers, sameX, sameY, State.readByte, drawSprite_i, drawSprite_mem, drawSprite_params]

/-- Settles O36: the second draw toggles the same pixels back, and meets each pixel the first turned on. -/
theorem spriteDrawnTwiceRestoresTheDisplay : Obligations.SpriteDrawnTwiceRestoresTheDisplay := by
  intro x y n s hx hy canonical inside
  have rows := (spriteRows_bounds n).2
  let t := drawSprite x y (Memory.readBytes s.mem s.i.toNat (spriteRows n)) s
  let u := drawSprite x y (Memory.readBytes t.mem t.i.toNat (spriteRows n)) t
  have first (q : Pixel) : q ∈ t.fb ↔ (SpriteCovers x y (spriteRows n) s q ↔ q ∉ s.fb) :=
    mem_drawSprite_fb x y s rows q
  have second (q : Pixel) : q ∈ u.fb ↔ (SpriteCovers x y (spriteRows n) s q ↔ q ∉ t.fb) :=
    (mem_drawSprite_fb x y t rows q).trans (iff_congr (spriteCovers_drawSprite hx hy) Iff.rfl)
  have canonicalT : fbWf t.fb := fbWf_drawPixels canonical
  refine ⟨t, u, exec_sprite_inside x y n inside, exec_sprite_inside x y n (s := t) inside, ?restored, ?collision⟩
  case restored =>
    refine fb_ext (fbWf_drawPixels canonicalT) canonical fun q => ?_
    rw [second, first]
    by_cases covered : SpriteCovers x y (spriteRows n) s q <;> simp [covered]
  case collision =>
    rintro ⟨q, on, off⟩
    have covered : SpriteCovers x y (spriteRows n) s q := ((first q).mp on).mpr off
    exact (getV_VF_drawSprite x y t rows).trans (if_pos ⟨q, (spriteCovers_drawSprite hx hy).mpr covered, on⟩)

/-! ## A stored byte fetched (20_memory.md R62) -/

/-- Settles O37: the two bytes fetched are two neighbours of the stored block. -/
theorem storedBytesAreTheNextFetch : Obligations.StoredBytesAreTheNextFetch := by
  intro x s p j hj canonical inside hp
  obtain ⟨t, answer, stored, -⟩ :=
    answers_store_inside (i := .str x) (s := s) rfl canonical (by rw [length_regsUpTo]; omega)
  refine ⟨t, answer, ?_⟩
  have byte (k : Nat) (hk : k ≤ x.val) : t.readByte (s.i.toNat + k) = s.getV ⟨k, by omega⟩ := by
    have inBlock : k < (s.regsUpTo x).length := by rw [length_regsUpTo]; omega
    rw [stored k inBlock, getElem_regsUpTo]
  have fetchable : p.toNat + 1 < Config.memSize := by
    simp only [Config.memSize]
    omega
  rw [fetch_inside (s := { t with pc := p }) fetchable, ← byte j (by omega), ← byte (j + 1) hj]
  simp only [hp]
  rfl

end Sys2Proof.Machine
end

section
/-! SUPPORT. Non-interference: the last report, the pulse count and the dead stack entries are carried along by a step
and read by none of its rules (10_state.md R25, R34, 40_dispatcher_cycle.md R106, 60_exceptions.md R228). One simulation
along the layers of a step serves both statements. -/

namespace Sys2Proof.Machine

/-! ## States that differ in the unread parts only -/

/-- The parts of the state that no rule reads, but for the live entries of the stack. -/
structure Unread where
  trace : Option Report
  beeps : Nat
  stack : Vector Word 16

/-- `s` with other unread parts. -/
def State.withUnread (s : State) (h : Unread) : State :=
  { s with trace := h.trace, beeps := h.beeps, stack := h.stack }

/-- `h` has the live stack entries of `s` (10_state.md R25). -/
def LiveAgree (s : State) (h : Unread) : Prop := ∀ j : Fin 16, j.val < s.sp.val → h.stack[j] = s.stack[j]

/-- Going from `s` to `t`, the unread parts `h` became `h'`: a part that was equal to the state's still is, and so are
the live entries. -/
structure Carried (s : State) (h : Unread) (t : State) (h' : Unread) : Prop where
  trace : h.trace = s.trace → h'.trace = t.trace
  beeps : h.beeps = s.beeps → h'.beeps = t.beeps
  stack : h.stack = s.stack → h'.stack = t.stack
  live : LiveAgree s h → LiveAgree t h'

theorem Carried.trans {s t u : State} {h h' h'' : Unread} (first : Carried s h t h')
    (second : Carried t h' u h'') : Carried s h u h'' :=
  ⟨second.trace ∘ first.trace, second.beeps ∘ first.beeps, second.stack ∘ first.stack, second.live ∘ first.live⟩

/-- A change of the other parts carries the unread ones along as they are. -/
theorem Carried.of_same (s t : State) (trace : t.trace = s.trace) (beeps : t.beeps = s.beeps)
    (stack : t.stack = s.stack) (sp : t.sp = s.sp) (h : Unread) : Carried s h t h := by
  refine ⟨fun e => e.trans trace.symm, fun e => e.trans beeps.symm, fun e => e.trans stack.symm, fun live j below => ?_⟩
  rw [sp] at below
  rw [stack]
  exact live j below

/-- A report overwrites the last one, with the same on both sides. -/
theorem Carried.report (s : State) (h : Unread) (r : Option Report) :
    Carried s h { s with trace := r } { h with trace := r } :=
  ⟨fun _ => rfl, id, id, id⟩

/-- The outcome `o` of the changed state is the next state `t` of the unchanged one with carried unread parts. -/
def Follows (s : State) (h : Unread) (o : Out) (t : State) : Prop :=
  ∃ h', o = .next (t.withUnread h') ∧ Carried s h t h'

theorem Follows.of_same {s t : State} {h : Unread} {o : Out} (answer : o = .next (t.withUnread h))
    (trace : t.trace = s.trace) (beeps : t.beeps = s.beeps) (stack : t.stack = s.stack) (sp : t.sp = s.sp) :
    Follows s h o t :=
  ⟨h, answer, .of_same s t trace beeps stack sp h⟩

theorem Follows.trans {s t u : State} {h h' : Unread} {o : Out} (carried : Carried s h t h')
    (follows : Follows t h' o u) : Follows s h o u := by
  obtain ⟨h'', answer, carried'⟩ := follows
  exact ⟨h'', answer, carried.trans carried'⟩

/-! ## Halts, reports and the end of a cycle -/

theorem follows_raiseHalt (s : State) (h : Unread) (r : HaltReason) (a : Word) :
    Follows s h (.next (raiseHalt r a (s.withUnread h))) (raiseHalt r a s) :=
  ⟨{ h with trace := some (.halted r a) }, rfl, fun _ => rfl, id, id, id⟩

/-- A tick gives both states a pulse or neither: whether it does is up to `ST`. -/
theorem follows_tick (s : State) (h : Unread) : Follows s h (.next (tick (s.withUnread h))) (tick s) := by
  refine ⟨{ h with beeps := if s.st = 1 then h.beeps + 1 else h.beeps }, rfl, id, fun e => ?_, id, id⟩
  rw [tick_beeps, ← e]

theorem follows_completeCycle (s : State) (h : Unread) :
    Follows s h (.next (completeCycle (s.withUnread h))) (completeCycle s) := by
  cases mode : s.params.timerMode with
  | external =>
    rw [completeCycle_external mode, completeCycle_external (s := s.withUnread h) mode]
    exact .of_same rfl rfl rfl rfl rfl
  | divided =>
    rw [completeCycle_divided mode, completeCycle_divided (s := s.withUnread h) mode]
    change Follows s h (.next (if s.cyc.val = 4 then _ else _)) _
    split
    · exact .trans (.of_same s { s with cyc := 0 } rfl rfl rfl rfl h) (follows_tick { s with cyc := 0 } h)
    · exact .of_same rfl rfl rfl rfl rfl

/-- Neither the flow break nor the snapshot of a report has an unread part (60_exceptions.md R228, log entry 12). -/
theorem follows_finishExecuted (ia : Word) (i : Instr) (s : State) (h : Unread) :
    Follows s h (.next (finishExecuted ia i (s.withUnread h))) (finishExecuted ia i s) :=
  .trans (.report s h _) (follows_completeCycle { s with trace := some (.executed ia i (flowBreak ia s) s.snapshot) }
    { h with trace := some (.executed ia i (flowBreak ia s) s.snapshot) })

theorem follows_finishSkipped (ia op : Word) (s : State) (h : Unread) :
    Follows s h (.next (finishSkipped ia op (s.withUnread h))) (finishSkipped ia op s) :=
  .trans (.report s h _) (follows_completeCycle { s with trace := some (.skipped ia op (flowBreak ia s) s.snapshot) }
    { h with trace := some (.skipped ia op (flowBreak ia s) s.snapshot) })

/-! ## Handlers -/

theorem loadRegs_withUnread (s : State) (h : Unread) (j : Nat) (bs : List Byte) :
    (s.withUnread h).loadRegs j bs = (s.loadRegs j bs).withUnread h := by
  induction bs generalizing s j with
  | nil => rfl
  | cons b bs ih =>
    unfold State.loadRegs
    split
    · exact ih (s.setV _ b) (j + 1)
    · rfl

/-- A call writes its return address at `SP` on both sides, where it becomes live. -/
theorem follows_jsr {nnn : BitVec 12} {s t : State} (h : Unread) (answer : exec (.jsr nnn) s = .next t) :
    Follows s h (exec (.jsr nnn) (s.withUnread h)) t := by
  rcases execJsr_eq_next answer with ⟨room, rfl⟩ | ⟨full, rfl⟩
  · refine ⟨{ h with stack := h.stack.set s.sp.val s.pc }, exec_jsr_of_room nnn (s := s.withUnread h) room, id, id,
      fun e => congrArg (fun stack => stack.set s.sp.val s.pc) e, fun live j below => ?_⟩
    simp only [Fin.getElem_fin, Vector.getElem_set]
    split
    · rfl
    · have older : j.val < s.sp.val := by simp only at below; omega
      exact live j older
  · rw [exec_jsr_of_full nnn (s := s.withUnread h) full]
    exact follows_raiseHalt s h _ _

/-- A return reads a live entry, the same on both sides. -/
theorem follows_rts {s t : State} {h : Unread} (live : LiveAgree s h) (answer : exec .rts s = .next t) :
    Follows s h (exec .rts (s.withUnread h)) t := by
  rcases execRts_eq_next answer with ⟨nonempty, rfl⟩ | ⟨empty, rfl⟩
  · have bound := s.sp.isLt
    have popped : h.stack[s.sp.val - 1] = s.stack[s.sp.val - 1] := live ⟨s.sp.val - 1, by omega⟩ (by simp only; omega)
    refine ⟨h, ?_, id, id, id, fun live j below => live j (by simp only at below; omega)⟩
    rw [exec_rts_of_live (s := s.withUnread h) nonempty]
    simp only [State.withUnread, popped]
  · rw [exec_rts_of_empty (s := s.withUnread h) empty]
    exact follows_raiseHalt s h _ _

/-- A store puts the same bytes at the same addresses, or halts, by the range alone. -/
theorem follows_store {s t : State} (h : Unread) {bs : List Byte}
    (answer : orHalt .dataRange s (memWrite s s.indexAddr bs) = .next t) :
    Follows s h (orHalt .dataRange (s.withUnread h) (memWrite (s.withUnread h) s.indexAddr bs)) t := by
  rcases store_eq_next answer with ⟨inside, rfl⟩ | ⟨outside, rfl⟩
  · rw [memWrite_inside (s := s.withUnread h) (a := s.indexAddr) inside]
    exact .of_same rfl rfl rfl rfl rfl
  · rw [memWrite_outside (s := s.withUnread h) (a := s.indexAddr) outside]
    exact follows_raiseHalt s h _ _

/-- A handler that reads through `I` gets the same bytes, or halts, by the range alone. -/
theorem follows_load {s t : State} {h : Unread} {n : Nat} {f f' : List Byte → State}
    (follows : ∀ bytes, Follows s h (.next (f' bytes)) (f bytes))
    (answer : orHalt .dataRange s ((memRead s s.indexAddr n).map f) = .next t) :
    Follows s h (orHalt .dataRange (s.withUnread h) ((memRead (s.withUnread h) s.indexAddr n).map f')) t := by
  rcases load_eq_next answer with ⟨inside, rfl⟩ | ⟨outside, rfl⟩
  · rw [memRead_inside (s := s.withUnread h) (a := s.indexAddr) inside]
    exact follows _
  · rw [memRead_outside (s := s.withUnread h) (a := s.indexAddr) outside]
    exact follows_raiseHalt s h _ _

theorem follows_exec {i : Instr} {s t : State} {h : Unread} (live : LiveAgree s h) (answer : exec i s = .next t) :
    Follows s h (exec i (s.withUnread h)) t := by
  cases i
  case jsr nnn => exact follows_jsr h answer
  case rts => exact follows_rts live answer
  case bcd x => exact follows_store h answer
  case str x => exact follows_store h answer
  case ldr x =>
    refine follows_load (fun bytes => ?_) answer
    rw [loadRegs_withUnread]
    exact .of_same rfl (by simp) (by simp) (by simp) (by simp)
  case sprite x y n =>
    exact follows_load (f := fun bytes => drawSprite x y bytes s)
      (f' := fun bytes => drawSprite x y bytes (s.withUnread h)) (fun bytes => .of_same rfl rfl rfl rfl rfl) answer
  all_goals
    cases answer
    exact .of_same rfl rfl rfl rfl rfl

/-! ## Cycles and events -/

theorem follows_afterHandler {ia : Word} {i : Instr} {s t u : State} {h : Unread} {o : Out}
    (follows : Follows s h o t) (answer : afterHandler ia i (.next t) = .next u) :
    Follows s h (afterHandler ia i o) u := by
  obtain ⟨h', rfl, carried⟩ := follows
  refine .trans carried ?_
  by_cases running : t.status = .running
  · rw [afterHandler_running running] at answer
    cases answer
    rw [afterHandler_running (t := t.withUnread h') running]
    exact follows_finishExecuted ia i t h'
  · rw [afterHandler_idle running] at answer
    cases answer
    rw [afterHandler_idle (t := t.withUnread h') running]
    exact .of_same rfl rfl rfl rfl rfl

theorem follows_runOpcode {ia op : Word} {s t : State} {h : Unread} (live : LiveAgree s h)
    (answer : runOpcode ia op s = .next t) : Follows s h (runOpcode ia op (s.withUnread h)) t := by
  unfold runOpcode at answer ⊢
  cases decoded : decodeWord op with
  | ok i =>
    simp only [decoded] at answer ⊢
    obtain ⟨u, handled⟩ := exec_answers i s
    rw [handled] at answer
    exact follows_afterHandler (follows_exec live handled) answer
  | error e =>
    simp only [decoded] at answer ⊢
    change Follows s h (if isSkipped s.params.unimpl op = true then _ else _) t
    split at answer <;> rename_i skipped <;> cases answer
    · rw [if_pos skipped]
      exact follows_finishSkipped ia op s h
    · rw [if_neg skipped]
      exact follows_raiseHalt s h _ _

theorem follows_runCycle {s t : State} {h : Unread} (live : LiveAgree s h) (answer : runCycle s = .next t) :
    Follows s h (runCycle (s.withUnread h)) t := by
  have sameFetch : fetch (s.withUnread h) = fetch s := rfl
  rw [runCycle] at answer ⊢
  rw [sameFetch]
  cases fetched : fetch s with
  | none =>
    rw [fetched] at answer
    cases answer
    exact follows_raiseHalt s h _ _
  | some op =>
    rw [fetched] at answer
    have advanced : Carried s h s.advancePc h := .of_same s s.advancePc rfl rfl rfl rfl h
    exact .trans advanced (follows_runOpcode (advanced.live live) answer)

theorem follows_cycleEvent {s t : State} {h : Unread} (live : LiveAgree s h) (answer : cycleEvent s = .next t) :
    Follows s h (cycleEvent (s.withUnread h)) t := by
  by_cases running : s.status = .running
  · rw [cycleEvent_running running] at answer
    rw [cycleEvent_running (s := s.withUnread h) running]
    exact follows_runCycle live answer
  · rw [cycleEvent_idle running] at answer
    cases answer
    rw [cycleEvent_idle (s := s.withUnread h) running]
    exact .of_same rfl rfl rfl rfl rfl

theorem follows_tickEvent (s : State) (h : Unread) :
    Follows s h (.next (tickEvent (s.withUnread h))) (tickEvent s) := by
  by_cases running : s.status = .running
  · cases mode : s.params.timerMode with
    | external =>
      rw [tickEvent_external_running mode running, tickEvent_external_running (s := s.withUnread h) mode running]
      exact follows_tick s h
    | divided =>
      rw [tickEvent_divided mode, tickEvent_divided (s := s.withUnread h) mode]
      exact .of_same rfl rfl rfl rfl rfl
  · rw [tickEvent_idle running, tickEvent_idle (s := s.withUnread h) running]
    exact .of_same rfl rfl rfl rfl rfl

theorem keyEvent_of_waiting {s : State} {x : Reg} (k : BitVec 4) (waiting : s.status = .waiting x) :
    keyEvent k s = resolveKey x k s := by
  rw [keyEvent, waiting]

theorem follows_keyEvent (k : BitVec 4) (s : State) (h : Unread) :
    Follows s h (.next (keyEvent k (s.withUnread h))) (keyEvent k s) := by
  by_cases suspended : ∃ x, s.status = .waiting x
  · obtain ⟨x, waiting⟩ := suspended
    rw [keyEvent_of_waiting k waiting, keyEvent_of_waiting (s := s.withUnread h) k waiting]
    have resumed := Carried.of_same s { s.setV x (k.setWidth 8) with status := .running } rfl rfl rfl rfl h
    exact .trans resumed (follows_finishExecuted s.ia (.key x) _ h)
  · have notWaiting : ∀ x, s.status ≠ .waiting x := not_exists.mp suspended
    rw [keyEvent_of_not_waiting k notWaiting, keyEvent_of_not_waiting (s := s.withUnread h) k notWaiting]
    exact .of_same rfl rfl rfl rfl rfl

/-- A reset builds the unread parts anew too (70_reset_and_hazards.md R250). -/
theorem follows_applyReset {rom : List Byte} {s t : State} (h : Unread) (answer : applyReset rom s = .next t) :
    Follows s h (applyReset rom (s.withUnread h)) t :=
  ⟨⟨t.trace, t.beeps, t.stack⟩, answer, fun _ => rfl, fun _ => rfl, fun _ => rfl, fun _ _ _ => rfl⟩

theorem follows_hostEvent {e : HostEvent} {s t : State} {h : Unread} (live : LiveAgree s h)
    (answer : hostEvent e s = .next t) : Follows s h (hostEvent e (s.withUnread h)) t := by
  cases e with
  | reset rom => exact follows_applyReset h answer
  | cycle => exact follows_cycleEvent live answer
  | tick =>
    cases answer
    exact follows_tickEvent s h
  | keyResolved k =>
    cases answer
    exact follows_keyEvent k s h

/-- A step carries the unread parts along. -/
theorem follows_step {s t : State} {h : Unread} (live : LiveAgree s h) (answer : step s = .next t) :
    Follows s h (step (s.withUnread h)) t := by
  rcases step_cases s with ⟨inbox, hstep⟩ | ⟨e, rest, inbox, hstep⟩ <;> rw [hstep] at answer
  · rw [step_of_cycle (s := s.withUnread h) (.inl inbox), eventTaken_of_nil (s := s.withUnread h) inbox]
    exact follows_cycleEvent live answer
  · have head : (s.withUnread h).inbox.head? = some e := by
      change s.inbox.head? = some e
      rw [inbox, List.head?_cons]
    have taken : Carried s h s.eventTaken h := .of_same s s.eventTaken rfl rfl rfl rfl h
    rw [step_of_head head]
    exact .trans taken (follows_hostEvent (taken.live live) answer)

/-- Settles O33: with the stack of `s`, the step keeps the stack of `t`. -/
theorem traceAndBeepsFeedNothingBack : Obligations.TraceAndBeepsFeedNothingBack := by
  intro s t tr b answer
  obtain ⟨⟨tr', b', stack'⟩, answer', carried⟩ := follows_step (h := ⟨tr, b, s.stack⟩) (fun _ _ => rfl) answer
  obtain rfl : stack' = t.stack := carried.stack rfl
  exact ⟨tr', b', answer'⟩

/-- Settles O34: with the report and the pulse count of `s`, the step keeps those of `t`, and the live entries. -/
theorem deadStackEntriesAreUnobservable : Obligations.DeadStackEntriesAreUnobservable := by
  intro s t dead live answer
  obtain ⟨⟨tr', b', dead'⟩, answer', carried⟩ := follows_step (h := ⟨s.trace, s.beeps, dead⟩) live answer
  obtain rfl : tr' = t.trace := carried.trace rfl
  obtain rfl : b' = t.beeps := carried.beeps rfl
  exact ⟨dead', answer', carried.live live⟩

end Sys2Proof.Machine
end
